-- ==== Sys2Proof/Word.lean ====
section
/-! DEFINITION. The plain types of FDCORE's words, characters and frames, and the fixed geometry (spec/00_scope.md R5). -/

namespace Sys2Proof

/-- An 8-bit quantity: a packed byte, or a character code (30_encoding.md R50). -/
abbrev Byte := BitVec 8

/-- A command word on `cmd_word` (30_encoding.md R54). -/
abbrev CmdWord := BitVec 36

/-- One LRC beat, the last mark in bit 8 and the character in bits 7 to 0 (30_encoding.md R57). -/
abbrev Beat := BitVec 9

/-- A coordinate operand as it stands in a command word: XW = 16 bits (00_scope.md R5). -/
abbrev Coord := BitVec 16

/-- A string of characters; a frame is such a string, without a line terminator (20_memory.md R41). -/
abbrev Text := List Byte

/-- W, the columns of the pixel buffer (00_scope.md R5). -/
abbrev numCols : Nat := 90

/-- H, the rows of the pixel buffer (00_scope.md R5). -/
abbrev numRows : Nat := 8

/-- NBYTES, the bytes of the packed stream (00_scope.md R5). -/
abbrev numBytes : Nat := 90

/-- What crosses one of the two input ports in one transfer: a command word on the command port, or a beat on the LRC
port (10_state.md R21). -/
inductive PortWord where
  | cmd (w : CmdWord)
  | beat (b : Beat)
deriving DecidableEq, Repr

end Sys2Proof
end

