-- ==== Sys2Proof/Syntax.lean ====
section
/-! DEFINITION. The operations of FDCORE as syntax: one constructor per row of spec/opcode_table.json (30_encoding.md R55),
with their mnemonics and the written form of a command (R66). -/

namespace Sys2Proof

/-- The eleven operations. `lrc` is ONE BEAT of the stream operation LRC, as the table's row has it (30_encoding.md R57);
the operation on a whole string is the list of its beats, `lrcBeats`. -/
inductive Instr where
  | setdot (x y : Coord)
  | clrdot (x y : Coord)
  | tgldot (x y : Coord)
  | allon
  | alloff
  | invall
  | pack
  | encreg (k : BitVec 3)
  | update
  | init
  | lrc (last : Bool) (c : Byte)
deriving DecidableEq, Repr

/-- The mnemonic of an operation (30_encoding.md R55). -/
def Instr.mnemonic (i : Instr) : String :=
  match i with
  | .setdot _ _ => "SETDOT"
  | .clrdot _ _ => "CLRDOT"
  | .tgldot _ _ => "TGLDOT"
  | .allon => "ALLON"
  | .alloff => "ALLOFF"
  | .invall => "INVALL"
  | .pack => "PACK"
  | .encreg _ => "ENCREG"
  | .update => "UPDATE"
  | .init => "INIT"
  | .lrc _ _ => "LRC"

/-- A command as R66 writes it: the mnemonic, then the operands in decimal. The written form of LRC is that of a whole
string, so a single beat has none. -/
def Instr.written (i : Instr) : Option String :=
  match i with
  | .setdot x y | .clrdot x y | .tgldot x y =>
      some (i.mnemonic ++ " " ++ toString x.toInt ++ ", " ++ toString y.toInt)
  | .encreg k => some (i.mnemonic ++ " " ++ toString k.toNat)
  | .lrc _ _ => none
  | _ => some i.mnemonic

/-- The beats of an LRC input string, in string order, `last` on the final one only (30_encoding.md R57). The empty string
has no beats: it cannot be presented on the port. -/
def lrcBeats (t : Text) : List Instr :=
  match t with
  | [] => []
  | [c] => [.lrc true c]
  | c :: d :: rest => .lrc false c :: lrcBeats (d :: rest)

end Sys2Proof
end

