-- ==== Sys2Proof/Decode.lean ====
section
/-! DEFINITION. Decoding a port word, total, with a name for every refusal; then the encoder, both from 30_encoding.md
sections 2 and 3. -/

namespace Sys2Proof

/-- Why a command word is reserved (30_encoding.md R64). -/
inductive ReservedReason where
  /-- `op` is 0x0 or 0xB to 0xF. -/
  | noSuchOp
  /-- A bit of an operand field the operation does not use is not zero. -/
  | operandNotZero
deriving DecidableEq, Repr

/-- What decoding answers. -/
inductive Decoded where
  | instr (i : Instr)
  | reserved (why : ReservedReason)
deriving DecidableEq, Repr

/-- `op`, bits 35 to 32 (30_encoding.md R54). -/
def opField (w : CmdWord) : BitVec 4 := w.extractLsb' 32 4

/-- `a`, bits 31 to 16. -/
def aField (w : CmdWord) : BitVec 16 := w.extractLsb' 16 16

/-- `b`, bits 15 to 0. -/
def bField (w : CmdWord) : BitVec 16 := w.extractLsb' 0 16

/-- An operation without operands: both fields must be zero (30_encoding.md R54, R64). -/
def decodePlain (a b : BitVec 16) (i : Instr) : Decoded :=
  if a = 0 ∧ b = 0 then .instr i else .reserved .operandNotZero

/-- ENCREG: the register number in `b[2:0]`, every other operand bit zero (30_encoding.md R54, R55). -/
def decodeEncreg (a b : BitVec 16) : Decoded :=
  if a = 0 ∧ b.extractLsb' 3 13 = 0 then .instr (.encreg (b.extractLsb' 0 3)) else .reserved .operandNotZero

/-- A command word (30_encoding.md R55, R64). -/
def decodeCmd (w : CmdWord) : Decoded :=
  let a := aField w
  let b := bField w
  match (opField w).toNat with
  | 0x1 => .instr (.setdot a b)
  | 0x2 => .instr (.clrdot a b)
  | 0x3 => .instr (.tgldot a b)
  | 0x4 => decodePlain a b .allon
  | 0x5 => decodePlain a b .alloff
  | 0x6 => decodePlain a b .invall
  | 0x7 => decodePlain a b .pack
  | 0x8 => decodeEncreg a b
  | 0x9 => decodePlain a b .update
  | 0xA => decodePlain a b .init
  | _ => .reserved .noSuchOp

/-- An LRC beat: `last` in bit 8, the character in bits 7 to 0 (30_encoding.md R57). Every beat is an operand of LRC. -/
def decodeBeat (b : Beat) : Instr := .lrc (b.getLsbD 8) (b.extractLsb' 0 8)

/-- Decoding, total on both ports. -/
def decode (p : PortWord) : Decoded :=
  match p with
  | .cmd w => decodeCmd w
  | .beat b => .instr (decodeBeat b)

/-- `op`, `a`, `b` side by side (30_encoding.md R54). -/
def cmdWord (op : BitVec 4) (a b : BitVec 16) : CmdWord := op ++ a ++ b

/-- The encoder, from the patterns of 30_encoding.md R55 and R57. -/
def encode (i : Instr) : PortWord :=
  match i with
  | .setdot x y => .cmd (cmdWord 0x1 x y)
  | .clrdot x y => .cmd (cmdWord 0x2 x y)
  | .tgldot x y => .cmd (cmdWord 0x3 x y)
  | .allon => .cmd (cmdWord 0x4 0 0)
  | .alloff => .cmd (cmdWord 0x5 0 0)
  | .invall => .cmd (cmdWord 0x6 0 0)
  | .pack => .cmd (cmdWord 0x7 0 0)
  | .encreg k => .cmd (cmdWord 0x8 0 (k.setWidth 16))
  | .update => .cmd (cmdWord 0x9 0 0)
  | .init => .cmd (cmdWord 0xA 0 0)
  | .lrc last c => .beat (BitVec.ofBool last ++ c)

/-- A command row of the opcode table: the words whose bits under `mask` read `pattern`. -/
structure OpRow where
  mnemonic : String
  mask : CmdWord
  pattern : CmdWord
deriving DecidableEq, Repr

/-- The word matches the row. -/
def OpRow.hits (r : OpRow) (w : CmdWord) : Bool := w &&& r.mask == r.pattern

/-- The ten command rows of spec/opcode_table.json, with its masks and matches. -/
def opRows : List OpRow := [
  ⟨"SETDOT", 0xF00000000, 0x100000000⟩,
  ⟨"CLRDOT", 0xF00000000, 0x200000000⟩,
  ⟨"TGLDOT", 0xF00000000, 0x300000000⟩,
  ⟨"ALLON", 0xFFFFFFFFF, 0x400000000⟩,
  ⟨"ALLOFF", 0xFFFFFFFFF, 0x500000000⟩,
  ⟨"INVALL", 0xFFFFFFFFF, 0x600000000⟩,
  ⟨"PACK", 0xFFFFFFFFF, 0x700000000⟩,
  ⟨"ENCREG", 0xFFFFFFFF8, 0x800000000⟩,
  ⟨"UPDATE", 0xFFFFFFFFF, 0x900000000⟩,
  ⟨"INIT", 0xFFFFFFFFF, 0xA00000000⟩]

/-- The port word of an opcode-table word: a row of 33 to 40 bits (the 36-bit command format in whole bytes) is a command
word, a row of 9 to 16 bits a beat. Bits above the format's width must be zero (log 22). -/
def tableWord (nbits w : Nat) : Option PortWord :=
  if 32 < nbits ∧ nbits ≤ 40 then
    if w < 2 ^ 36 then some (.cmd (BitVec.ofNat 36 w)) else none
  else if 8 < nbits ∧ nbits ≤ 16 then
    if w < 2 ^ 9 then some (.beat (BitVec.ofNat 9 w)) else none
  else none

/-- The instruction the decoder reads from an opcode-table word. -/
def decodeTableWord (nbits w : Nat) : Option Instr :=
  match tableWord nbits w with
  | none => none
  | some p =>
    match decode p with
    | .instr i => some i
    | .reserved _ => none

end Sys2Proof
end

