-- ==== Sys2Proof/Machine/Hex.lean ====
section
/-! DEFINITION. Characters and hexadecimal digits (30_encoding.md R50 to R53). -/

namespace Sys2Proof.Machine

open Sys2Proof

/-- The character codes of a string of ASCII characters (30_encoding.md R50, log 21). -/
def ascii (s : String) : Text := s.toList.map fun c => BitVec.ofNat 8 c.toNat

/-- MARKER, the character `:` (00_scope.md R5). -/
def marker : Byte := 0x3A

/-- HEXCHAR, the uppercase hexadecimal digit of n (R51). -/
def hexChar (n : BitVec 4) : Byte :=
  if n.toNat ≤ 9 then BitVec.ofNat 8 (0x30 + n.toNat) else BitVec.ofNat 8 (0x41 + (n.toNat - 10))

/-- HEXVAL where ISHEX holds, nothing elsewhere (R52): digits, uppercase and lowercase letters. -/
def hexVal? (c : Byte) : Option (BitVec 4) :=
  let n := c.toNat
  if 0x30 ≤ n ∧ n ≤ 0x39 then some (BitVec.ofNat 4 (n - 0x30))
  else if 0x41 ≤ n ∧ n ≤ 0x46 then some (BitVec.ofNat 4 (n - 0x41 + 10))
  else if 0x61 ≤ n ∧ n ≤ 0x66 then some (BitVec.ofNat 4 (n - 0x61 + 10))
  else none

/-- ISHEX (R52). -/
def isHex (c : Byte) : Bool := (hexVal? c).isSome

/-- The sixteen uppercase digits FDCORE itself outputs (R50, R51). -/
def isUpperHex (c : Byte) : Bool :=
  (0x30 ≤ c.toNat && c.toNat ≤ 0x39) || (0x41 ≤ c.toNat && c.toNat ≤ 0x46)

/-- HEX2: two digits, the high four bits first (R53). -/
def hex2 (b : Byte) : Text := [hexChar (b.extractLsb' 4 4), hexChar (b.extractLsb' 0 4)]

/-- The hexadecimal rendering of a list of bytes, in order. -/
def hexText (bs : List Byte) : Text := bs.flatMap hex2

/-- Reading pairs of digits, high digit first, as the numbers hi*16 + lo (42_lrc.md R85, steps 1 and 2). Nothing for an odd
length or a character that is no digit. -/
def hexPairs? (t : Text) : Option (List Nat) :=
  match t with
  | [] => some []
  | [_] => none
  | h :: l :: rest =>
    match hexVal? h, hexVal? l, hexPairs? rest with
    | some hi, some lo, some more => some ((16 * hi.toNat + lo.toNat) :: more)
    | _, _, _ => none

end Sys2Proof.Machine
end

