-- ==== Sys2Proof/Config.lean ====
section
/-! DEFINITION. What the spec leaves open, as constants without a body: the prefixes of registers 1 to 5 (30_encoding.md
R62), the line terminator (20_memory.md R41) and the free values. Nothing in Lean can evaluate an opaque constant, so a
theorem that names one holds for every value it could have. -/

namespace Sys2Proof

/-- The digits of a prefix after the marker, read as bytes: at least one byte, so at least two digits and an even number of
them, each an uppercase hexadecimal digit once rendered. These are exactly the strings 30_encoding.md R62 admits
(log 10). -/
structure PrefixBody where
  first : Byte
  rest : List Byte
deriving DecidableEq, Repr, Inhabited

/-- The five open parameters REG_PREFIX[1..5] (00_scope.md R5). -/
structure Config where
  prefix1 : PrefixBody
  prefix2 : PrefixBody
  prefix3 : PrefixBody
  prefix4 : PrefixBody
  prefix5 : PrefixBody
deriving DecidableEq, Repr, Inhabited

/-- The configuration of the device modelled: OPEN in the spec, so it has no body here (log 10). -/
opaque Config.device : Config

/-- REC, the recommended instantiation (92_eei_decisions.md D10): an inference of the spec, for the vectors marked [REC]
only. The machine does not use it. -/
def Config.recommended : Config where
  prefix1 := ⟨0x10, [0x00, 0x10, 0x00]⟩
  prefix2 := ⟨0x10, [0x00, 0x20, 0x00]⟩
  prefix3 := ⟨0x10, [0x00, 0x30, 0x00]⟩
  prefix4 := ⟨0x10, [0x00, 0x40, 0x00]⟩
  prefix5 := ⟨0x10, [0x00, 0x50, 0x00]⟩

/-- LINE_END, which the Transmitter appends: OPEN (92_eei_decisions.md D11, log 11). -/
opaque Config.lineEnd : Text

/-- Free value: `lrc_res` of a malformed string is unspecified (42_lrc.md R86, 93 U3, log 9). -/
opaque Config.freeLrcRes : Nat → BitVec 16

/-- The external Transmitter, as far as the contract goes (10_state.md R19, 20_memory.md R41 and R42, log 13). -/
structure Transmitter where
  /-- The frame it is sending. -/
  held : Option Text
  /-- Bytes the channel has delivered and nobody has drained. -/
  inbound : List Byte
  /-- What it has written to the channel, line terminators included, oldest first. -/
  channel : List Byte
deriving DecidableEq, Repr, Inhabited

/-- Free value: what the far side is left with by a reset while a sequence runs (70_reset_and_hazards.md R121, 93 U10,
log 14). -/
opaque Config.freeFarSide : Nat → Transmitter

end Sys2Proof
end

