-- ==== Sys2Proof/Machine/State.lean ====
section
/-! DEFINITION. The state of FDCORE and of the agents around it as plain data, the reasons a step can stop, and the reset
state (10_state.md). -/

namespace Sys2Proof.Machine

open Sys2Proof

/-- `PB`: column by column, row 0 first (10_state.md R10, log 24). -/
abbrev PixelBuf := Vector (Vector Bool numRows) numCols

/-- `PBS` (10_state.md R11). -/
abbrev Packed := Vector Byte numBytes

/-- `SEQ.kind` (10_state.md R14). -/
inductive SeqKind where
  | idle
  | upd
  | ini
  | one
deriving DecidableEq, Repr

/-- The frame sequencer `SEQ` (10_state.md R14). -/
structure Seq where
  kind : SeqKind
  idx : BitVec 4
  k : BitVec 3
deriving DecidableEq, Repr

/-- The fault register `FAULT` with its names (60_exceptions.md R100). Codes 5 to 7 are never written (log 19). -/
inductive FaultCode where
  | noFault
  | reservedCmd
  | tglRange
  | pbsInvalid
  | lrcInput
deriving DecidableEq, Repr

/-- The LRC unit's scratch state (10_state.md R18, 42_lrc.md R86) and whether a string is part-way in (10_state.md R21). -/
structure LrcUnit where
  /-- ACC -/
  acc : BitVec 16
  /-- NIB -/
  nib : BitVec 4
  /-- PH: a high digit is latched. -/
  ph : Bool
  /-- A character of this string was no hexadecimal digit. -/
  bad : Bool
  /-- The first beat of a string has come and its last has not. -/
  partWay : Bool
deriving DecidableEq, Repr

/-- One result on the LRC port: `lrc_err` and `lrc_res` (10_state.md R21). -/
structure LrcAnswer where
  err : Bool
  res : BitVec 16
deriving DecidableEq, Repr

/-- The input pins of one step (10_state.md R21), and the bytes the display puts on the channel meanwhile (60_exceptions.md
R106). `cmdValid` and `lrcValid` offer the head of the host's lists. -/
structure Pins where
  rst : Bool
  cmdValid : Bool
  lrcValid : Bool
  txReady : Bool
  txDone : Bool
  inbound : List Byte
deriving DecidableEq, Repr

/-- The state. The first group is FDCORE's; the rest belongs to the agents outside it and to the model. -/
structure State where
  /-- `PB`, R10 -/
  pb : PixelBuf
  /-- `PBS`, R11 -/
  pbs : Packed
  /-- `PBS_V`, R12 -/
  pbsV : Bool
  /-- `SEQ`, R14 -/
  seq : Seq
  /-- `TX_WAIT`, R15 -/
  txWait : Bool
  /-- `FAULT`, R13 -/
  fault : FaultCode
  /-- `FB`, R17: its cells from 0 on; a cell beyond the list holds 0 (log 7) -/
  fb : Text
  /-- `FB_LEN`, R17 -/
  fbLen : Nat
  /-- `ACC`, `NIB`, `PH` and the string's progress, R18, R21 -/
  lrc : LrcUnit
  /-- `ACCB`, R18 -/
  accb : Byte
  /-- `TXLOG`, R22: every frame handed over since reset, oldest first -/
  txLog : List Text
  /-- the LRC results returned since reset, oldest first (70_reset_and_hazards.md R122) -/
  lrcLog : List LrcAnswer
  /-- the external Transmitter, R19 -/
  tx : Transmitter
  /-- command words the host has yet to transfer, the offered one first (log 2) -/
  cmds : List CmdWord
  /-- LRC beats the host has yet to transfer, the offered one first (log 2) -/
  beats : List Beat
  /-- the input pins of the coming steps (log 1) -/
  pins : List Pins
  /-- the model's own: the index of the next free value (log 23) -/
  free : Nat
deriving DecidableEq, Repr

/-- Why the machine can stop. Both stand only in states no run reaches (Safety.lean, `State.Inv`); log 18. -/
inductive Fault where
  /-- Raised by the `emit` step when SEQ names no frame. Safe: the hardware has no such state. -/
  | noSuchFrame
  /-- Raised by the `emit` step when a register frame is wanted while PBS_V = 0, where REGFRAME is not defined
  (43_frame_encoder.md R94). Safe: the hardware has no such state. -/
  | packedNeverWritten
deriving DecidableEq, Repr

/-- Why an instruction can be refused. -/
inductive Refusal where
  /-- Raised by `exec` for an instruction without a meaning. Safe. No arm of `exec` raises it. -/
  | notModelled (mnemonic : String)
deriving DecidableEq, Repr

/-- `SEQ` = (IDLE, 0, 0). -/
def Seq.atRest : Seq := { kind := .idle, idx := 0, k := 0 }

/-- The state right after reset (10_state.md R23). PBS, FB, FB_LEN and the scratch have no reset value in the spec: the
values here are DESIGN CHOICEs (logs 6, 7, 8), and so is the counter (log 23). Nor does it say what the external Transmitter
has at the start: that it holds no frame, that no inbound byte waits at it and that nothing has been written to the channel
are DESIGN CHOICEs (log 26), as is the empty list of answers (log 15). Nothing is offered on any port (logs 1, 2). -/
def State.reset : State where
  pb := Vector.replicate numCols (Vector.replicate numRows false)
  pbs := Vector.replicate numBytes 0
  pbsV := false
  seq := Seq.atRest
  txWait := false
  fault := .noFault
  fb := []
  fbLen := 0
  lrc := { acc := 0, nib := 0, ph := false, bad := false, partWay := false }
  accb := 0
  txLog := []
  lrcLog := []
  tx := { held := none, inbound := [], channel := [] }
  cmds := []
  beats := []
  pins := []
  free := 0

end Sys2Proof.Machine
end

