-- ==== Sys2Proof/Machine/Flags.lean ====
section
/-! DEFINITION. What is read off the state: the codes and fields of STATUS (10_state.md R16), the conditions of acceptance
(30_encoding.md R56) and of the steps. No operation sets an arithmetic flag (10_state.md R13). -/

namespace Sys2Proof.Machine

open Sys2Proof

/-- The three bits of FAULT (60_exceptions.md R100). -/
def faultBits (f : FaultCode) : BitVec 3 :=
  match f with
  | .noFault => 0
  | .reservedCmd => 1
  | .tglRange => 2
  | .pbsInvalid => 3
  | .lrcInput => 4

/-- The two bits of SEQ.kind (10_state.md R14). -/
def kindBits (k : SeqKind) : BitVec 2 :=
  match k with
  | .idle => 0
  | .upd => 1
  | .ini => 2
  | .one => 3

/-- SEQ_LEN (10_state.md R14). IDLE has no frames. -/
def seqLen (k : SeqKind) : Nat :=
  match k with
  | .idle => 0
  | .upd => 12
  | .ini => 6
  | .one => 1

/-- BUSY: SEQ.kind is not IDLE (10_state.md R15). -/
def busy (s : State) : Bool := !decide (s.seq.kind = .idle)

/-- FAULT = 0. -/
def faultFree (s : State) : Bool := decide (s.fault = .noFault)

/-- `cmd_ready`: FAULT = 0, BUSY = 0 and no LRC string part-way in (10_state.md R21, 30_encoding.md R56). -/
def cmdReady (s : State) : Bool := faultFree s && !busy s && !s.lrc.partWay

/-- A beat can be accepted: the first one as a command, the later ones always (30_encoding.md R57). -/
def lrcReady (s : State) : Bool := s.lrc.partWay || cmdReady s

/-- The `emit` step is enabled, which is also `tx_valid` (43_frame_encoder.md R96). -/
def emitEnabled (s : State) : Bool := busy s && !s.txWait && faultFree s

/-- A command is transferred in a step with these pins (10_state.md R21). -/
def cmdTransfer (p : Pins) (s : State) : Bool := p.cmdValid && cmdReady s && !s.cmds.isEmpty

/-- The port `lrc_ready`: for a first beat also no command in the same cycle (10_state.md R21, 70 R131). -/
def lrcReadyPin (p : Pins) (s : State) : Bool := s.lrc.partWay || (cmdReady s && !cmdTransfer p s)

/-- STATUS, bit 15 first: 0, SEQ_K, SEQ_IDX, SEQ_KIND, TX_WAIT, BUSY, PBS_V, FAULT (10_state.md R16). -/
def status (s : State) : BitVec 16 :=
  (0 : BitVec 1) ++ s.seq.k ++ s.seq.idx ++ kindBits s.seq.kind ++ BitVec.ofBool s.txWait ++ BitVec.ofBool (busy s)
    ++ BitVec.ofBool s.pbsV ++ faultBits s.fault

end Sys2Proof.Machine
end

