-- ==== Sys2Proof/Machine/Ops.lean ====
section
/-! DEFINITION. The named operations on the state: cells of the pixel buffer, the fault entry (60_exceptions.md R108) and
reset beside it, the hand-over and confirmation of a frame, the ports. -/

namespace Sys2Proof.Machine

open Sys2Proof

/-- A function on every element, in an array of fixed size. -/
def mapAll {α β : Type} {n : Nat} (f : α → β) (v : Vector α n) : Vector β n :=
  ⟨⟨v.toList.map f⟩, by simp⟩

/-- The read `PB[x][y]`; false off the buffer, where no rule reads. -/
def pbGet (pb : PixelBuf) (x y : Nat) : Bool :=
  if h : x < numCols ∧ y < numRows then pb[x][y] else false

/-- The write `PB[x][y] <- v`; it moves exactly the one cell named (00_scope.md R7). -/
def pbSet (pb : PixelBuf) (x y : Nat) (v : Bool) : PixelBuf :=
  if h : x < numCols ∧ y < numRows then pb.set x (pb[x].set y v) else pb

/-- Every cell the same (40_pixel_ops.md R73, R74). -/
def pbFill (v : Bool) : PixelBuf := Vector.replicate numCols (Vector.replicate numRows v)

/-- Every cell flipped (40_pixel_ops.md R75). -/
def pbInvert (pb : PixelBuf) : PixelBuf := mapAll (mapAll (fun b => !b)) pb

/-- A write of the pixel buffer and of nothing else. -/
def setPb (pb : PixelBuf) (s : State) : State := { s with pb := pb }

/-- A write of the packed stream by a pack, with the accumulator it leaves; PBS_V becomes 1 (41_pack.md R81). -/
def setPacked (pbs : Packed) (accb : Byte) (s : State) : State := { s with pbs := pbs, pbsV := true, accb := accb }

/-- `SEQ <- q`, the only control transfer (00_scope.md R7). -/
def setSeq (q : Seq) (s : State) : State := { s with seq := q }

/-- A write of the LRC unit's scratch. -/
def setLrc (u : LrcUnit) (s : State) : State := { s with lrc := u }

/-- A result on the LRC port. -/
def answer (a : LrcAnswer) (s : State) : State := { s with lrcLog := s.lrcLog ++ [a] }

/-- `raise F`: FAULT takes the code and nothing else is written (60_exceptions.md R108). There is no vector, no handler and
no return (R109): only reset clears FAULT. -/
def raiseFault (f : FaultCode) (s : State) : State := { s with fault := f }

/-- A malformed string's result: `lrc_err` = 1, `lrc_res` a free value (42_lrc.md R86, log 9). -/
def answerError (s : State) : State :=
  { s with lrcLog := s.lrcLog ++ [{ err := true, res := Config.freeLrcRes s.free }], free := s.free + 1 }

/-- Reset of FDCORE at any moment (70_reset_and_hazards.md R120): every field of FDCORE at its reset value, the host's lists
and the coming pins left as they are. While a sequence runs the far side is left with a free value (R121, log 14). -/
def resetCore (s : State) : State :=
  { State.reset with
    tx := if busy s then Config.freeFarSide s.free else s.tx
    cmds := s.cmds
    beats := s.beats
    pins := s.pins
    free := if busy s then s.free + 1 else s.free }

/-- FB with a string written over its first cells (10_state.md R17). -/
def writeFb (f : Text) (fb : Text) : Text := f ++ fb.drop f.length

/-- `emit(f)` (43_frame_encoder.md R96): the frame is in FB, goes to the Transmitter whole, and TX_WAIT becomes 1. -/
def handOver (f : Text) (s : State) : State :=
  { s with
    fb := writeFb f s.fb
    fbLen := f.length
    txLog := s.txLog ++ [f]
    txWait := true
    tx := { s.tx with held := some f } }

/-- The Transmitter's five actions for the frame it holds: drain, write with the terminator, flush, wait, drain
(20_memory.md R42, log 13). -/
def sendHeld (t : Transmitter) : Transmitter :=
  match t.held with
  | some f => { held := none, inbound := [], channel := t.channel ++ f ++ Config.lineEnd }
  | none => t

/-- What `done` makes of SEQ (43_frame_encoder.md R97). -/
def seqAfterDone (q : Seq) : Seq :=
  if q.idx.toNat + 1 < seqLen q.kind then { q with idx := q.idx + 1 } else Seq.atRest

/-- The `done` step (43_frame_encoder.md R97), after the Transmitter's actions. -/
def confirm (s : State) : State :=
  { s with txWait := false, seq := seqAfterDone s.seq, tx := sendHeld s.tx }

/-- The pins of a step for which none are listed: the host offers what it has, the Transmitter takes a frame and confirms
nothing (log 1). -/
def offering : Pins :=
  { rst := false, cmdValid := true, lrcValid := true, txReady := true, txDone := false, inbound := [] }

/-- The pins of this step. -/
def pinsNow (s : State) : Pins := s.pins.headD offering

/-- Time moves on by one step: its pins are used up, and the display's bytes have reached the Transmitter, never FDCORE
(60_exceptions.md R106). -/
def advance (s : State) : State :=
  { s with pins := s.pins.tail, tx := { s.tx with inbound := s.tx.inbound ++ (pinsNow s).inbound } }

/-- The transfer of a step with these pins: the offered command word if one is accepted, else the offered beat if one is
(30_encoding.md R56, R57; the command first, 70_reset_and_hazards.md R131). What is not transferred stays offered. -/
def transfer (p : Pins) (s : State) : Option (PortWord × State) :=
  match cmdTransfer p s, s.cmds with
  | true, w :: ws => some (.cmd w, { s with cmds := ws })
  | _, _ =>
    match p.lrcValid && lrcReady s, s.beats with
    | true, b :: bs => some (.beat b, { s with beats := bs })
    | _, _ => none

end Sys2Proof.Machine
end

