-- ==== Sys2Proof/Machine/Checksum.lean ====
section
/-! DEFINITION. The LRC checksum (42_lrc.md): the function on strings (R85) and the unit that takes a string beat by beat
(R86). -/

namespace Sys2Proof.Machine

open Sys2Proof

/-- Step 3 of R85: complement, add 1, keep the low 8 bits. -/
def lrcByte (sum : Nat) : Byte := ~~~(BitVec.ofNat 8 sum) + 1

/-- `LRC(t)` (R85); nothing where t is MALFORMED (R88). -/
def lrcOf (t : Text) : Option Text := (hexPairs? t).map fun bytes => hex2 (lrcByte bytes.sum)

/-- The unit at the start of a computation: ACC, NIB and PH are cleared (10_state.md R18; log 5 on NIB). -/
def lrcClear : LrcUnit := { acc := 0, nib := 0, ph := false, bad := false, partWay := true }

/-- The unit before a beat: cleared if the beat is a string's first. -/
def lrcStart (u : LrcUnit) : LrcUnit := if u.partWay then u else lrcClear

/-- One character (R86): marked if it is no digit, else latched as the high digit or added with the one latched. ACC wraps
at 16 bits, which cannot be seen (R87 (d)). -/
def lrcFeed (u : LrcUnit) (c : Byte) : LrcUnit :=
  match hexVal? c with
  | none => { u with bad := true }
  | some v =>
    if u.ph then { u with acc := u.acc + 16 * u.nib.setWidth 16 + v.setWidth 16, ph := false }
    else { u with nib := v, ph := true }

/-- After the last beat: malformed if a character was bad or a high digit is left over (R86). -/
def lrcMalformed (u : LrcUnit) : Bool := u.bad || u.ph

/-- `lrc_res` of a well-formed string: HEX2 of (~ACC + 1) & 0xFF, the high character in bits 15 to 8 (R86,
10_state.md R21). -/
def lrcResult (u : LrcUnit) : BitVec 16 :=
  let r : Byte := (~~~u.acc + 1).setWidth 8
  hexChar (r.extractLsb' 4 4) ++ hexChar (r.extractLsb' 0 4)

/-- LRC, one beat (R86). The last beat of a malformed string raises F_LRC_INPUT; the string is consumed whole first.
A string is a list of such beats (log 4). -/
def execLrc (last : Bool) (c : Byte) (s : State) : Host.Outcome State Fault Refusal :=
  let u := lrcFeed (lrcStart s.lrc) c
  if last then
    if lrcMalformed u then .next (raiseFault .lrcInput (answerError (setLrc { u with partWay := false } s)))
    else .next (answer { err := false, res := lrcResult u } (setLrc { u with partWay := false } s))
  else .next (setLrc u s)

end Sys2Proof.Machine
end

