-- ==== Sys2Proof/Machine/Packer.lean ====
section
/-! DEFINITION. The bitstream packer (41_pack.md). -/

namespace Sys2Proof.Machine

open Sys2Proof

/-- One row of R80's inner loop: place the row's bit in bit 0, then shift left unless this was row 0. -/
def packRow (col : Vector Bool numRows) (acc : Byte) (y : Nat) : Byte :=
  let placed := acc ||| (BitVec.ofBool (col[y]?.getD false)).setWidth 8
  if y = 0 then placed else placed <<< 1

/-- R80's loop over one column: ACCB cleared, rows 7 down to 0. -/
def packColumn (col : Vector Bool numRows) : Byte := [7, 6, 5, 4, 3, 2, 1, 0].foldl (packRow col) 0

/-- `pack(P)` (R80): one byte per column, in column order. -/
def pack (pb : PixelBuf) : Packed := mapAll packColumn pb

/-- What the pack unit's accumulator is left with: the byte of the last column (10_state.md R18, log 17). -/
def accbAfter (pb : PixelBuf) : Byte := packColumn pb[89]

/-- The pack that PACK and UPDATE run (R81, 43_frame_encoder.md R92). -/
def runPack (s : State) : State := setPacked (pack s.pb) (accbAfter s.pb) s

/-- PACK (R81). -/
def execPack (s : State) : Host.Outcome State Fault Refusal := .next (runPack s)

end Sys2Proof.Machine
end

