-- ==== Sys2Proof/Machine/Rom.lean ====
section
/-! DEFINITION. The constant ROM (10_state.md R20): register table, prefix strings, literal frames; and the reading of a
prefix string, which refuses an ill-formed one. -/

namespace Sys2Proof.Machine

open Sys2Proof

/-- REG_START, REG_COUNT and REG_PAD of one register (00_scope.md R5, 20_memory.md R37). -/
structure RegRow where
  start : Nat
  count : Nat
  pad : Nat
deriving DecidableEq, Repr

/-- The register table. -/
def regTable : List RegRow :=
  [⟨0, 12, 0⟩, ⟨12, 16, 0⟩, ⟨28, 16, 0⟩, ⟨44, 16, 0⟩, ⟨60, 16, 0⟩, ⟨76, 14, 2⟩]

/-- LIT_START (30_encoding.md R59). -/
def litStart : Text := ascii ":01000303A257"

/-- LIT_END[0..4] (30_encoding.md R59). -/
def litEnd : List Text :=
  [ascii ":00000C01F3", ascii ":0100030200FA", ascii ":0100030600F6", ascii ":0100030200FA", ascii ":01000303A950"]

/-- LIT_INIT[0..5] (30_encoding.md R59). -/
def litInit : List Text :=
  [ascii ":01000502FFF9", ascii ":01000602FFF8", ascii ":01000303A158",
   ascii ":1000000004200006071E1E1E00080000000000005D", ascii ":00000101FE", ascii ":0100030200FA"]

/-- A prefix string from its digits: the marker first (30_encoding.md R62). -/
def prefixText (p : PrefixBody) : Text := marker :: hexText (p.first :: p.rest)

/-- REG_PREFIX[0] is given (30_encoding.md R61); the other five are the configuration's (R62). -/
def regPrefix (cfg : Config) (k : Nat) : Text :=
  match k with
  | 0 => ascii ":1000000001100000"
  | 1 => prefixText cfg.prefix1
  | 2 => prefixText cfg.prefix2
  | 3 => prefixText cfg.prefix3
  | 4 => prefixText cfg.prefix4
  | 5 => prefixText cfg.prefix5
  | _ => []

/-- Pairs of uppercase digits as bytes, nothing where there is an odd number of them or another character. -/
def upperPairs? (t : Text) : Option (List Byte) :=
  match t with
  | [] => some []
  | [_] => none
  | h :: l :: rest =>
    if isUpperHex h && isUpperHex l then
      match hexVal? h, hexVal? l, upperPairs? rest with
      | some hi, some lo, some more => some ((hi ++ lo) :: more)
      | _, _, _ => none
    else none

/-- Reading a prefix string into the configuration: refused unless it meets the four conditions of 30_encoding.md R62. -/
def readPrefix? (t : Text) : Option PrefixBody :=
  match t with
  | [] => none
  | m :: digits =>
    if m = marker then
      match upperPairs? digits with
      | some (b :: bs) => some ⟨b, bs⟩
      | _ => none
    else none

end Sys2Proof.Machine
end

