-- ==== Sys2Proof/Machine/Encoder.lean ====
section
/-! DEFINITION. The frame encoder and sequencer (43_frame_encoder.md): register frames, the order of frames, ENCREG, UPDATE,
INIT, and the `emit` and `done` steps. -/

namespace Sys2Proof.Machine

open Sys2Proof

/-- The frame of register k before its checksum: prefix, payload, padding (R94, 30_encoding.md R60). -/
def regBody (cfg : Config) (pbs : Packed) (k : Nat) : Option Text :=
  match regTable[k]? with
  | none => none
  | some r =>
    some (regPrefix cfg k ++ hexText ((pbs.toList.drop r.start).take r.count) ++ hexText (List.replicate r.pad 0))

/-- REGFRAME (R94): the checksum covers everything after the marker (42_lrc.md R89). -/
def regFrame (cfg : Config) (pbs : Packed) (k : Nat) : Option Text :=
  match regBody cfg pbs k with
  | none => none
  | some body => (lrcOf body.tail).map fun c => body ++ c

/-- Where frame `idx` of a sequence comes from. -/
inductive FrameSource where
  | literal (f : Text)
  | register (k : Nat)
deriving DecidableEq, Repr

/-- The table of FRAMEOF (R95); nothing where SEQ names no frame. -/
def frameSource (q : Seq) : Option FrameSource :=
  let n := q.idx.toNat
  match q.kind with
  | .idle => none
  | .upd =>
    if n = 0 then some (.literal litStart)
    else if n ≤ 6 then some (.register (n - 1))
    else (litEnd[n - 7]?).map .literal
  | .ini => (litInit[n]?).map .literal
  | .one => if n = 0 then some (.register q.k.toNat) else none

/-- FRAMEOF (R95), with the register frames formed from the given PBS. -/
def frameOf (cfg : Config) (pbs : Packed) (q : Seq) : Option Text :=
  match frameSource q with
  | none => none
  | some (.literal f) => some f
  | some (.register k) => regFrame cfg pbs k

/-- The LRC unit after it has run over a register frame's body; a part-way string is not touched (log 17). -/
def lrcScratch (body : Text) (u : LrcUnit) : LrcUnit :=
  { body.tail.foldl lrcFeed lrcClear with partWay := u.partWay }

/-- The `emit` step (R96): the frame is formed now and handed over. Literal frames do not pass the LRC unit
(30_encoding.md R59). One step for the whole frame (00_scope.md R6, log 3). -/
def emit (s : State) : Host.Outcome State Fault Refusal :=
  match frameSource s.seq with
  | none => .fault .noSuchFrame
  | some (.literal f) => .next (handOver f s)
  | some (.register k) =>
    if s.pbsV then
      match regBody Config.device s.pbs k, regFrame Config.device s.pbs k with
      | some body, some f => .next (handOver f (setLrc (lrcScratch body s.lrc) s))
      | _, _ => .fault .noSuchFrame
    else .fault .packedNeverWritten

/-- The characters of a frame as they leave on `tx_char` with `tx_last`, first character first (20_memory.md R41). -/
def txBeats (f : Text) : List (Byte × Bool) :=
  match f with
  | [] => []
  | [c] => [(c, true)]
  | c :: d :: rest => (c, false) :: txBeats (d :: rest)

/-- The lengths of every frame FDCORE can form under a configuration (30_encoding.md R59, R60). -/
def frameLengths (cfg : Config) : List Nat :=
  (litStart :: litEnd ++ litInit).map List.length
    ++ (List.range 6).map fun k =>
      match regTable[k]? with
      | none => 0
      | some r => (regPrefix cfg k).length + 2 * r.count + 2 * r.pad + 2

/-- FB_CAP, the largest frame length under the configuration (00_scope.md R5, log 16). -/
def fbCap (cfg : Config) : Nat := (frameLengths cfg).foldl max 0

/-- ENCREG (R91): the register number is checked before PBS_V (60_exceptions.md R110). -/
def execEncreg (k : BitVec 3) (s : State) : Host.Outcome State Fault Refusal :=
  if 5 < k.toNat then .next (raiseFault .reservedCmd s)
  else if s.pbsV then .next (setSeq { kind := .one, idx := 0, k := k } s)
  else .next (raiseFault .pbsInvalid s)

/-- UPDATE (R92): pack, then the twelve frames. -/
def execUpdate (s : State) : Host.Outcome State Fault Refusal :=
  .next (setSeq { kind := .upd, idx := 0, k := 0 } (runPack s))

/-- INIT (R93): the six frames. -/
def execInit (s : State) : Host.Outcome State Fault Refusal :=
  .next (setSeq { kind := .ini, idx := 0, k := 0 } s)

end Sys2Proof.Machine
end

