-- ==== Sys2Proof/Machine/Operands.lean ====
section
/-! DEFINITION. Operand assembly (30_encoding.md R54) and the range predicate (40_pixel_ops.md R76). -/

namespace Sys2Proof.Machine

open Sys2Proof

/-- A coordinate operand as a signed integer: x = sext(a), y = sext(b) (30_encoding.md R54). -/
def coord (c : Coord) : Int := c.toInt

/-- INRANGE (40_pixel_ops.md R76). -/
def inRange (x y : Int) : Bool :=
  decide (0 ≤ x) && decide (x ≤ 89) && decide (0 ≤ y) && decide (y ≤ 7)

/-- The index of an in-range coordinate. -/
def cellIndex (c : Coord) : Nat := (coord c).toNat

end Sys2Proof.Machine
end

