-- ==== Sys2Proof/Machine/Pixel.lean ====
section
/-! DEFINITION. The six pixel buffer operations (40_pixel_ops.md). -/

namespace Sys2Proof.Machine

open Sys2Proof

/-- The write of one dot, ignored off the buffer (40_pixel_ops.md R70, R71). -/
def writeDot (x y : Coord) (v : Bool) (s : State) : State :=
  if inRange (coord x) (coord y) then setPb (pbSet s.pb (cellIndex x) (cellIndex y) v) s else s

/-- SETDOT (R70). -/
def execSetdot (x y : Coord) (s : State) : Host.Outcome State Fault Refusal := .next (writeDot x y true s)

/-- CLRDOT (R71). -/
def execClrdot (x y : Coord) (s : State) : Host.Outcome State Fault Refusal := .next (writeDot x y false s)

/-- TGLDOT (R72): in range the cell flips, out of range F_TGL_RANGE is raised. -/
def execTgldot (x y : Coord) (s : State) : Host.Outcome State Fault Refusal :=
  if inRange (coord x) (coord y) then
    .next (setPb (pbSet s.pb (cellIndex x) (cellIndex y) (!pbGet s.pb (cellIndex x) (cellIndex y))) s)
  else .next (raiseFault .tglRange s)

/-- ALLON (R73). -/
def execAllon (s : State) : Host.Outcome State Fault Refusal := .next (setPb (pbFill true) s)

/-- ALLOFF (R74). -/
def execAlloff (s : State) : Host.Outcome State Fault Refusal := .next (setPb (pbFill false) s)

/-- INVALL (R75). -/
def execInvall (s : State) : Host.Outcome State Fault Refusal := .next (setPb (pbInvert s.pb) s)

end Sys2Proof.Machine
end

