-- ==== Sys2Proof/Machine/Dispatch.lean ====
section
/-! DEFINITION. The meaning of each accepted instruction, one arm per constructor. -/

namespace Sys2Proof.Machine

open Sys2Proof

def exec (i : Instr) (s : State) : Host.Outcome State Fault Refusal :=
  match i with
  | .setdot x y => Sys2Proof.Machine.execSetdot x y s
  | .clrdot x y => Sys2Proof.Machine.execClrdot x y s
  | .tgldot x y => Sys2Proof.Machine.execTgldot x y s
  | .allon => Sys2Proof.Machine.execAllon s
  | .alloff => Sys2Proof.Machine.execAlloff s
  | .invall => Sys2Proof.Machine.execInvall s
  | .pack => Sys2Proof.Machine.execPack s
  | .encreg k => Sys2Proof.Machine.execEncreg k s
  | .update => Sys2Proof.Machine.execUpdate s
  | .init => Sys2Proof.Machine.execInit s
  | .lrc last c => Sys2Proof.Machine.execLrc last c s

end Sys2Proof.Machine
end

