-- ==== Sys2Proof/Machine/Accept.lean ====
section
/-! DEFINITION. What a step does: the moves of the agents and the condition of each (30_encoding.md R56,
70_reset_and_hazards.md R131). -/

namespace Sys2Proof.Machine

open Sys2Proof

/-- A transferred word is decoded and run; a reserved one raises F_RESERVED_CMD (30_encoding.md R56, R64, log 20).
That it may be accepted was checked at the port (log 25). -/
def runWord (p : PortWord) (s : State) : Host.Outcome State Fault Refusal :=
  match decode p with
  | .instr i => exec i s
  | .reserved _ => .next (raiseFault .reservedCmd s)

/-- The move of FDCORE as a processor of words: the word transferred with these pins, or a wait that changes nothing. -/
def serve (p : Pins) (s : State) : Host.Outcome State Fault Refusal :=
  match transfer p s with
  | some (w, t) => runWord w t
  | none => .next s

/-- The one move of a step with these pins: reset before everything (70 R120); `done` if a frame is outstanding (43 R97);
`emit` if enabled and the Transmitter takes characters (43 R96); else the ports. A `tx_done` pulse with no frame
outstanding is ignored (60_exceptions.md R105). -/
def move (p : Pins) (s : State) : Host.Outcome State Fault Refusal :=
  if p.rst then .next (resetCore s)
  else if p.txDone && s.txWait then .next (confirm s)
  else if p.txReady && emitEnabled s then emit s
  else serve p s

end Sys2Proof.Machine
end

