-- ==== Sys2Proof/Machine/Step.lean ====
section
/-! DEFINITION. One step of the machine, and the placing of a word where the next step fetches. -/

namespace Sys2Proof.Machine

open Sys2Proof

/-- One step: its pins are read, time moves on, and one agent makes its move (log 1). -/
def step (s : State) : Host.Outcome State Fault Refusal := move (pinsNow s) (advance s)

/-- The word is put at the head of the list of its port, in place of the one offered there, and the coming sample of pins
offers it and nothing else (log 2). The machine's own state is not touched: it takes the word as soon as 30_encoding.md R56
lets it, which in every idle and unfaulted state is the very next step. -/
def State.withFetchWord (s : State) (nbits w : Nat) : State :=
  match tableWord nbits w with
  | none => s
  | some (.cmd c) => { s with cmds := c :: s.cmds.tail, pins := { offering with lrcValid := false } :: s.pins.tail }
  | some (.beat b) => { s with beats := b :: s.beats.tail, pins := { offering with cmdValid := false } :: s.pins.tail }

end Sys2Proof.Machine
end

