-- ==== Sys2Proof/Safety.lean ====
section
/-! DEFINITION. What claims speak of: the invariant of reachable states, how a run stands (70_reset_and_hazards.md R122), and
the frames a sequence has to send. -/

namespace Sys2Proof.Machine

open Sys2Proof

/-- The sequencer's part of the invariant: at rest when IDLE; else `idx` below SEQ_LEN (10_state.md R14), `k` a register
number for ONE and 0 otherwise. -/
def Seq.inv (q : Seq) : Bool :=
  match q.kind with
  | .idle => decide (q = Seq.atRest)
  | .one => decide (q.idx.toNat < seqLen q.kind) && decide (q.k.toNat ≤ 5)
  | .upd | .ini => decide (q.idx.toNat < seqLen q.kind) && decide (q.k = 0)

/-- The invariant every step keeps. -/
structure State.Inv (s : State) : Prop where
  /-- 10_state.md R14 -/
  seqOk : s.seq.inv = true
  /-- A frame is outstanding only while a sequence runs. -/
  waitBusy : s.txWait = true → busy s = true
  /-- A fault is raised only when idle and nothing starts after it (60_exceptions.md R108). -/
  faultIdle : s.fault ≠ .noFault → busy s = false
  /-- While an LRC string is part-way in, no sequence and no fault starts (30_encoding.md R56). -/
  stringIdle : s.lrc.partWay = true → busy s = false ∧ s.fault = .noFault
  /-- A sequence with register frames has a packed stream (43_frame_encoder.md R92). -/
  packed : s.seq.kind = .upd ∨ s.seq.kind = .one → s.pbsV = true
  /-- The Transmitter holds the frame last handed over while it is outstanding. -/
  held : s.txWait = true → s.tx.held.isSome = true ∧ s.tx.held = s.txLog.getLast?
  /-- Frames fit the frame buffer (10_state.md R17). -/
  fits : s.fbLen ≤ s.fb.length ∧ s.fb.length ≤ fbCap Config.device

/-- The frames a sequence of this kind sends, in order (43_frame_encoder.md R95). -/
def sequenceFrames (cfg : Config) (pbs : Packed) (kind : SeqKind) (k : BitVec 3) : List (Option Text) :=
  (List.range (seqLen kind)).map fun n => frameOf cfg pbs { kind := kind, idx := BitVec.ofNat 4 n, k := k }

/-- How many frames of the running sequence have been handed over. -/
def framesSent (s : State) : Nat := s.seq.idx.toNat + (if s.txWait then 1 else 0)

/-- The log is `base` and then the frames of the running sequence handed over so far, formed from PBS. -/
def Sending (base : List Text) (s : State) : Prop :=
  s.txLog.map some
    = base.map some ++ (sequenceFrames Config.device s.pbs s.seq.kind s.seq.k).take (framesSent s)

/-- The run has ended well (70_reset_and_hazards.md R122): everything offered is transferred and FDCORE is at rest without a
fault. An LRC string left part-way is not ended (93_implementation_defined.md U23). -/
def endedWell (s : State) : Bool :=
  s.cmds.isEmpty && s.beats.isEmpty && !busy s && !s.txWait && faultFree s && !s.lrc.partWay

/-- The run has failed (70_reset_and_hazards.md R122, 60_exceptions.md R108). -/
def failed (s : State) : Bool := !faultFree s

/-- The run waits for a confirmation; if none comes it is stuck, not ended (20_memory.md R43). -/
def awaitsDone (s : State) : Bool := s.txWait

/-- FDCORE's own part of two states is the same: everything but the far side, the offered words, the pins and the counter. -/
def State.sameCore (s t : State) : Prop :=
  { s with tx := t.tx, cmds := t.cmds, beats := t.beats, pins := t.pins, free := t.free } = t

/-- A command word is transferred in the coming step, and these words stay offered after it (30_encoding.md R56). -/
def State.Accepts (s : State) (w : CmdWord) (ws : List CmdWord) : Prop :=
  (pinsNow s).rst = false ∧ s.txWait = false ∧ (pinsNow s).cmdValid = true ∧ cmdReady s = true ∧ s.cmds = w :: ws

/-- A beat is transferred in the coming step, and these beats stay offered after it (30_encoding.md R57). -/
def State.AcceptsBeat (s : State) (b : Beat) (bs : List Beat) : Prop :=
  (pinsNow s).rst = false ∧ s.txWait = false ∧ busy s = false ∧ (pinsNow s).lrcValid = true
    ∧ lrcReadyPin (pinsNow s) s = true ∧ s.beats = b :: bs

/-- The state in which an accepted command runs: the pins used up, the word taken. -/
def State.afterTake (s : State) (ws : List CmdWord) : State := { advance s with cmds := ws }

/-- The same for an accepted beat. -/
def State.afterTakeBeat (s : State) (bs : List Beat) : State := { advance s with beats := bs }

/-- A frame as 30_encoding.md R58 has it: the marker, then an even number of uppercase hexadecimal characters whose last two
are the checksum of those between the marker and it. -/
def FrameOk (f : Text) : Prop :=
  f.head? = some marker ∧ f.tail.all isUpperHex = true ∧ f.tail.length % 2 = 0 ∧ 2 ≤ f.tail.length
    ∧ lrcOf (f.tail.take (f.tail.length - 2)) = some (f.tail.drop (f.tail.length - 2))

/-- The instructions of a list run one after another, each as accepted. -/
def runAll (is : List Instr) (s : State) : Host.Outcome State Fault Refusal :=
  match is with
  | [] => .next s
  | i :: rest =>
    match exec i s with
    | .next t => runAll rest t
    | .fault f => .fault f
    | .refused r => .refused r

end Sys2Proof.Machine
end

