-- ==== Sys2Proof/WellFormed.lean ====
section
/-! DEFINITION. The check on an instruction's fields beyond their widths (10_state.md R14, 43_frame_encoder.md R91). -/

namespace Sys2Proof

/-- ENCREG's operand names a register, 0 to 5. ENCREG 6 and ENCREG 7 match the pattern and name none (30_encoding.md R64);
they still decode and run: their meaning is the fault of R91. Every other field may hold any value of its width. -/
def Instr.wellFormed (i : Instr) : Bool :=
  match i with
  | .encreg k => decide (k.toNat ≤ 5)
  | .setdot _ _ | .clrdot _ _ | .tgldot _ _ => true
  | .allon | .alloff | .invall | .pack | .update | .init => true
  | .lrc _ _ => true

end Sys2Proof
end

