-- ==== Sys2Proof/Certificates/Slice0/Obligations.lean ====
section
/-! DEFINITION. The statements for the provers. A frame is written as `{ t with field := s.field } = s`: every field of the
state but the ones named is unchanged, the pixel buffer, the packed stream and every register among them. -/

open Sys2Proof Sys2Proof.Machine

-- ENCODING

/-- Decoding the encoding of any instruction gives it back, every operand at every value (30_encoding.md sections 2 and 3). -/
def Obligations.EncodeThenDecodeGivesBack : Prop :=
  ∀ i : Instr, decode (encode i) = .instr i

/-- Every word that decodes is the encoding of what it decodes to: no operation has two words (30_encoding.md section 2). -/
def Obligations.DecodeThenEncodeGivesBack : Prop :=
  ∀ (p : PortWord) (i : Instr), decode p = .instr i → encode i = p

/-- A command word decodes to the operation of a row exactly when it matches that row's mask and pattern, and then it matches
no other row (opcode_table.json). -/
def Obligations.DecodeFollowsOpcodeRows : Prop :=
  ∀ r ∈ opRows, ∀ w : CmdWord,
    ((∃ i, decode (.cmd w) = .instr i ∧ i.mnemonic = r.mnemonic) ↔ r.hits w = true)
    ∧ (r.hits w = true → ∀ q ∈ opRows, q.hits w = true → q = r)

/-- The reserved command words are those listed: op 0x0 and 0xB to 0xF; an operation without operands with a non-zero
operand field; ENCREG with `a` or `b[15:3]` not zero (30_encoding.md section 3). -/
def Obligations.ReservedWordsAreThoseListed : Prop :=
  ∀ w : CmdWord, (∃ why, decode (.cmd w) = .reserved why) ↔
    (let op := (w.extractLsb' 32 4).toNat
     let a := w.extractLsb' 16 16
     let b := w.extractLsb' 0 16
     op = 0x0 ∨ 0xB ≤ op
     ∨ (op ∈ [0x4, 0x5, 0x6, 0x7, 0x9, 0xA] ∧ (a ≠ 0 ∨ b ≠ 0))
     ∨ (op = 0x8 ∧ (a ≠ 0 ∨ b.extractLsb' 3 13 ≠ 0)))

/-- Words written out from the encoding tables decode to the instructions they stand for (95_test_vectors.md section 2.1). -/
def Obligations.SpecWordsDecode : Prop :=
  decode (.cmd 0x100590007) = .instr (.setdot 89 7)
  ∧ decode (.cmd 0x1FFFF0000) = .instr (.setdot (-1) 0)
  ∧ decode (.cmd 0x20003FFFF) = .instr (.clrdot 3 (-1))
  ∧ decode (.cmd 0x3005A0007) = .instr (.tgldot 90 7)
  ∧ decode (.cmd 0x400000000) = .instr .allon
  ∧ decode (.cmd 0x500000000) = .instr .alloff
  ∧ decode (.cmd 0x600000000) = .instr .invall
  ∧ decode (.cmd 0x700000000) = .instr .pack
  ∧ decode (.cmd 0x800000005) = .instr (.encreg 5)
  ∧ decode (.cmd 0x900000000) = .instr .update
  ∧ decode (.cmd 0xA00000000) = .instr .init
  ∧ decode (.beat 0x141) = .instr (.lrc true 0x41)

-- FETCH AND ACCEPTANCE

/-- A step in which a word is transferred is `exec` of the instruction it decodes to, run in the state with the word taken
and the pins used up. FDCORE is ready for a command exactly when FAULT = 0, SEQ.kind = IDLE and no LRC string is part-way
in; for a beat under the same condition, when no command is transferred in that step, and for the later beats of a string
without condition (30_encoding.md section 2; that pins and offered words are lists of State is the model's, logs 1
and 2). -/
def Obligations.StepRunsDecodedInstruction : Prop :=
  ∀ (s : State) (i : Instr),
    (∀ w ws, s.Accepts w ws → decode (.cmd w) = .instr i → step s = exec i (s.afterTake ws))
    ∧ (∀ b bs, s.AcceptsBeat b bs → decode (.beat b) = .instr i → step s = exec i (s.afterTakeBeat bs))
    ∧ (∀ b bs, s.Inv → s.lrc.partWay = true → (pinsNow s).rst = false → (pinsNow s).lrcValid = true → s.beats = b :: bs →
        decode (.beat b) = .instr i → step s = exec i (s.afterTakeBeat bs))
    ∧ (cmdReady s = true ↔ s.fault = .noFault ∧ s.seq.kind = .idle ∧ s.lrc.partWay = false)
    ∧ ∀ p : Pins, lrcReadyPin p s = true ↔
        s.lrc.partWay = true
        ∨ s.fault = .noFault ∧ s.seq.kind = .idle ∧ ¬(p.cmdValid = true ∧ s.cmds ≠ [])

/-- R101. An accepted command word that matches no pattern, or ENCREG 6 or 7, and no other accepted command word, raises
F_RESERVED_CMD, code 1; of FDCORE's state FAULT alone changes. -/
def Obligations.ReservedCommandFault : Prop :=
  ∀ (s : State) (w : CmdWord) (ws : List CmdWord), s.Accepts w ws →
    ∃ t, step s = .next t ∧
      ((∀ r ∈ opRows, r.hits w = false) ∨ w = 0x800000006 ∨ w = 0x800000007 →
        t.fault = .reservedCmd ∧ faultBits t.fault = 1 ∧ { t with fault := s.fault } = s.afterTake ws)
      ∧ (t.fault = .reservedCmd → (∀ r ∈ opRows, r.hits w = false) ∨ w = 0x800000006 ∨ w = 0x800000007)

/-- When a command and a first LRC beat are offered in one step, the command is taken and the beat stays offered
(70_reset_and_hazards.md section 3; the lists of offered words are the model's, log 2). -/
def Obligations.CommandTakenBeforeFirstBeat : Prop :=
  ∀ (s t : State) (w : CmdWord) (ws : List CmdWord), s.Accepts w ws → (pinsNow s).lrcValid = true →
    s.lrc.partWay = false → step s = .next t → t.cmds = ws ∧ t.beats = s.beats ∧ t.lrc.partWay = false

/-- While a sequence runs, or a frame is outstanding, or a fault is recorded, a step takes no command word and no beat, and
PB and PBS do not change except by reset (20_memory.md section 8, 30_encoding.md section 2; the lists of offered words are
the model's, log 2). -/
def Obligations.NothingAcceptedWhileBusyOrFaulted : Prop :=
  ∀ s t : State, s.Inv → busy s = true ∨ s.fault ≠ .noFault → step s = .next t →
    t.cmds = s.cmds ∧ t.beats = s.beats ∧ ((pinsNow s).rst = false → t.pb = s.pb ∧ t.pbs = s.pbs ∧ t.pbsV = s.pbsV)

/-- Between the first and the last beat of an LRC string no command word is taken; only reset ends that without the
string's last beat (30_encoding.md section 2, 93_implementation_defined.md U23). -/
def Obligations.StringPartWayHoldsCommands : Prop :=
  ∀ s t : State, s.Inv → s.lrc.partWay = true → (pinsNow s).rst = false → step s = .next t →
    t.cmds = s.cmds ∧ t.pb = s.pb ∧ t.txLog = s.txLog
    ∧ (t.lrc.partWay = false → ∃ b bs, s.beats = b :: bs ∧ b.getLsbD 8 = true)

-- PIXEL BUFFER

/-- SETDOT completes for all operands: the cell named becomes 1 when the pair is in range, every other cell and every other
part of the state is unchanged; out of range nothing changes (40_pixel_ops.md section 2). -/
def Obligations.SetdotWritesOneCell : Prop :=
  ∀ (x y : Coord) (s : State), ∃ t, exec (.setdot x y) s = .next t ∧ { t with pb := s.pb } = s
    ∧ (∀ cx cy, cx < 90 → cy < 8 →
        pbGet t.pb cx cy = if (cx : Int) = x.toInt ∧ (cy : Int) = y.toInt then true else pbGet s.pb cx cy)
    ∧ (¬(0 ≤ x.toInt ∧ x.toInt ≤ 89 ∧ 0 ≤ y.toInt ∧ y.toInt ≤ 7) → t = s)

/-- CLRDOT, likewise with 0 (40_pixel_ops.md section 2). -/
def Obligations.ClrdotClearsOneCell : Prop :=
  ∀ (x y : Coord) (s : State), ∃ t, exec (.clrdot x y) s = .next t ∧ { t with pb := s.pb } = s
    ∧ (∀ cx cy, cx < 90 → cy < 8 →
        pbGet t.pb cx cy = if (cx : Int) = x.toInt ∧ (cy : Int) = y.toInt then false else pbGet s.pb cx cy)
    ∧ (¬(0 ≤ x.toInt ∧ x.toInt ≤ 89 ∧ 0 ≤ y.toInt ∧ y.toInt ≤ 7) → t = s)

/-- TGLDOT in range completes: the cell named flips and nothing else changes (40_pixel_ops.md section 2). -/
def Obligations.TgldotFlipsOneCell : Prop :=
  ∀ (x y : Coord) (s : State), 0 ≤ x.toInt → x.toInt ≤ 89 → 0 ≤ y.toInt → y.toInt ≤ 7 →
    ∃ t, exec (.tgldot x y) s = .next t ∧ { t with pb := s.pb } = s
      ∧ (∀ cx cy, cx < 90 → cy < 8 →
          pbGet t.pb cx cy
            = if (cx : Int) = x.toInt ∧ (cy : Int) = y.toInt then !pbGet s.pb cx cy else pbGet s.pb cx cy)

/-- R102. TGLDOT raises F_TGL_RANGE, code 2, when INRANGE is false; FAULT alone changes. -/
def Obligations.TgldotRangeFault : Prop :=
  ∀ (x y : Coord) (s : State), inRange (coord x) (coord y) = false →
    ∃ t, exec (.tgldot x y) s = .next t ∧ faultBits t.fault = 2 ∧ t.pb = s.pb ∧ { t with fault := s.fault } = s

/-- R76. INRANGE is the signed comparison with 0 to 89 and 0 to 7 on the sign-extended operands; a negative field, 0xFFFF
among them, is out of range; 720 of the operand pairs are in range. -/
def Obligations.InRangeIsSignedComparison : Prop :=
  (∀ x y : Int, inRange x y = true ↔ 0 ≤ x ∧ x ≤ 89 ∧ 0 ≤ y ∧ y ≤ 7)
  ∧ (∀ a : Coord, coord a = if a.toNat < 2 ^ 15 then (a.toNat : Int) else (a.toNat : Int) - 2 ^ 16)
  ∧ (∀ b : Coord, inRange (coord 0xFFFF) (coord b) = false)
  ∧ (Finset.univ.filter fun p : Coord × Coord => inRange (coord p.1) (coord p.2) = true).card = 720

/-- ALLON and ALLOFF complete and write every cell, INVALL completes and flips every cell, and nothing else changes
(40_pixel_ops.md section 2). -/
def Obligations.WholeBufferOperations : Prop :=
  ∀ s : State, ∃ t₁ t₂ t₃, exec .allon s = .next t₁ ∧ exec .alloff s = .next t₂ ∧ exec .invall s = .next t₃
    ∧ { t₁ with pb := s.pb } = s ∧ { t₂ with pb := s.pb } = s ∧ { t₃ with pb := s.pb } = s
    ∧ ∀ x y, x < 90 → y < 8 →
        pbGet t₁.pb x y = true ∧ pbGet t₂.pb x y = false ∧ pbGet t₃.pb x y = !pbGet s.pb x y

/-- INVALL twice, and TGLDOT twice on one in-range pair, restore the state (40_pixel_ops.md section 3). -/
def Obligations.InvertingTwiceRestores : Prop :=
  ∀ s : State, runAll [.invall, .invall] s = .next s
    ∧ ∀ x y : Coord, inRange (coord x) (coord y) = true → runAll [.tgldot x y, .tgldot x y] s = .next s

/-- ALLON then INVALL is ALLOFF, ALLOFF then INVALL is ALLON, and SETDOT then CLRDOT is CLRDOT (40_pixel_ops.md section 3). -/
def Obligations.PixelOperationsCompose : Prop :=
  ∀ s : State, runAll [.allon, .invall] s = exec .alloff s ∧ runAll [.alloff, .invall] s = exec .allon s
    ∧ ∀ x y : Coord, runAll [.setdot x y, .clrdot x y] s = exec (.clrdot x y) s

/-- Only an accepted pixel operation, or reset, changes PB (10_state.md section 2, 40_pixel_ops.md section 3). -/
def Obligations.OnlyPixelOperationsChangePixels : Prop :=
  ∀ s t : State, s.Inv → step s = .next t → (pinsNow s).rst = false → t.pb ≠ s.pb →
    ∃ w ws i, s.Accepts w ws ∧ decode (.cmd w) = .instr i
      ∧ i.mnemonic ∈ ["SETDOT", "CLRDOT", "TGLDOT", "ALLON", "ALLOFF", "INVALL"]

/-- Every instruction answers a next state, on all operands and in all states: its own effect for ALLON, ALLOFF and INVALL
and the others without a fault, its own effect or the fault for TGLDOT, ENCREG and LRC. None hands over a frame or confirms
one by itself: TXLOG, TX_WAIT, FB, the Transmitter, the offered words and the pins are unchanged (00_scope.md section 5,
40_pixel_ops.md section 2, 43_frame_encoder.md section 3; the Transmitter, the offered words and the pins are state of the
model's, logs 1, 2 and 13). -/
def Obligations.EveryInstructionAnswersNext : Prop :=
  ∀ (i : Instr) (s : State), ∃ t, exec i s = .next t
    ∧ t.txLog = s.txLog ∧ t.txWait = s.txWait ∧ t.fb = s.fb ∧ t.fbLen = s.fbLen ∧ t.tx = s.tx
    ∧ t.cmds = s.cmds ∧ t.beats = s.beats ∧ t.pins = s.pins

-- PACKER

/-- R31. After a pack, by PACK or by UPDATE, bit y of byte x of PBS is PB[x][y], for every column and row. -/
def Obligations.PackIsColumnMajor : Prop :=
  ∀ s : State, ∃ t u, exec .pack s = .next t ∧ exec .update s = .next u
    ∧ ∀ (x y : Nat) (hx : x < 90), y < 8 →
        (t.pbs[x]'hx).getLsbD y = pbGet t.pb x y ∧ (u.pbs[x]'hx).getLsbD y = pbGet u.pb x y
        ∧ pbGet t.pb x y = pbGet s.pb x y ∧ pbGet u.pb x y = pbGet s.pb x y

/-- PACK completes: byte x is the sum of PB[x][y] times 2^y, PBS_V becomes 1, and beside PBS, PBS_V and the dead scratch
ACCB (log 17) nothing changes (41_pack.md section 2). -/
def Obligations.PackWritesClosedForm : Prop :=
  ∀ s : State, ∃ t, exec .pack s = .next t ∧ t.pbsV = true
    ∧ (∀ (x : Nat) (hx : x < 90),
        (t.pbs[x]'hx).toNat = ((List.range 8).map fun y => if pbGet s.pb x y then 2 ^ y else 0).sum)
    ∧ { t with pbs := s.pbs, pbsV := s.pbsV, accb := s.accb } = s

/-- `pack` is a bijection between buffers and sequences of 90 bytes (41_pack.md section 3). -/
def Obligations.PackIsBijective : Prop :=
  Function.Bijective pack

/-- `pack` of the inverted buffer is the bytewise complement, an all-off buffer packs to 0x00 and an all-on buffer to 0xFF in
every byte (41_pack.md section 3). -/
def Obligations.PackCommutesWithInversion : Prop :=
  ∀ (pb : PixelBuf) (x : Nat) (hx : x < 90),
    (pack (pbInvert pb))[x]'hx = ~~~((pack pb)[x]'hx)
    ∧ (pack (pbFill false))[x]'hx = 0x00 ∧ (pack (pbFill true))[x]'hx = 0xFF

/-- PBS changes only by the pack of an accepted PACK or UPDATE, which rewrites all of it from PB; a pixel operation leaves it
stale. PBS_V changes only by an accepted PACK or UPDATE too, and is then 1, but for reset, which makes it 0 (20_memory.md
section 13, 10_state.md sections 2 and 6). -/
def Obligations.PackedStreamChangesOnlyByPack : Prop :=
  ∀ s t : State, s.Inv → step s = .next t →
    ((pinsNow s).rst = false → t.pbs ≠ s.pbs →
      (∃ w ws, s.Accepts w ws ∧ (decode (.cmd w) = .instr .pack ∨ decode (.cmd w) = .instr .update))
      ∧ t.pbs = pack s.pb ∧ t.pb = s.pb ∧ t.pbsV = true)
    ∧ ((pinsNow s).rst = false → t.pbsV ≠ s.pbsV →
      (∃ w ws, s.Accepts w ws ∧ (decode (.cmd w) = .instr .pack ∨ decode (.cmd w) = .instr .update))
      ∧ t.pbsV = true)
    ∧ ((pinsNow s).rst = true → t.pbsV = false)

-- CHECKSUM

/-- R52. ISHEX holds of the 22 characters `0` to `9`, `A` to `F`, `a` to `f`; HEXVAL gives the digit's value, inverts
HEXCHAR, and reads a lowercase letter as its uppercase one. -/
def Obligations.HexDigitReading : Prop :=
  (∀ c : Byte, isHex c = true ↔ c ∈ ascii "0123456789ABCDEFabcdef")
  ∧ (∀ c : Byte, isHex c = false → hexVal? c = none)
  ∧ (∀ n : Nat, ∀ _ : n < 16, ∀ c : Byte,
      (ascii "0123456789ABCDEF")[n]? = some c ∨ (ascii "0123456789abcdef")[n]? = some c →
        hexVal? c = some (BitVec.ofNat 4 n))
  ∧ (∀ n : BitVec 4, hexVal? (hexChar n) = some n)

/-- The checksum byte r of a well-formed string makes the total a multiple of 256, and is (256 - sum mod 256) mod 256
(42_lrc.md section 1). -/
def Obligations.ChecksumNegatesTheSum : Prop :=
  ∀ (t : Text) (bytes : List Nat), hexPairs? t = some bytes →
    lrcOf t = some (hex2 (lrcByte bytes.sum))
    ∧ (lrcByte bytes.sum).toNat = (256 - bytes.sum % 256) % 256
    ∧ (bytes.sum + (lrcByte bytes.sum).toNat) % 256 = 0

/-- A string is malformed exactly when its length is odd or a character, at any position, is no hexadecimal digit; a
well-formed one gives two uppercase digits (42_lrc.md section 1). -/
def Obligations.MalformedExactlyOddOrNotHex : Prop :=
  ∀ t : Text, (lrcOf t = none ↔ t.length % 2 = 1 ∨ ∃ c ∈ t, isHex c = false)
    ∧ ∀ c, lrcOf t = some c → c.length = 2 ∧ c.all isUpperHex = true

/-- The checksum of a well-formed string, its letters uppercase or lowercase, does not depend on the order of its byte pairs,
only on their multiset; so neither does that of rendered bytes (42_lrc.md section 1). -/
def Obligations.ChecksumIgnoresByteOrder : Prop :=
  (∀ (t u : Text) (as bs : List Nat), hexPairs? t = some as → hexPairs? u = some bs → as.Perm bs → lrcOf t = lrcOf u)
  ∧ ∀ as bs : List Byte, as.Perm bs → lrcOf (hexText as) = lrcOf (hexText bs)

/-- The LRC port computes LRC: taking the beats of a non-empty string one by one from a state with no string part-way in ends
in a next state whose one new answer is the two characters of LRC(t), at any length although ACC has 16 bits, and a
malformed string gives `lrc_err` and F_LRC_INPUT; beside the unit's scratch, the answers and FAULT (and the model's counter
of free values, on an error) nothing changes (42_lrc.md sections 1 and 2; the list of answers and the free value are the
model's, logs 9 and 15). -/
def Obligations.LrcPortComputesChecksum : Prop :=
  ∀ (t : Text) (s : State), t ≠ [] → s.lrc.partWay = false →
    ∃ u, runAll (lrcBeats t) s = .next u
      ∧ { u with lrc := s.lrc, lrcLog := s.lrcLog, fault := s.fault, free := s.free } = s
      ∧ u.lrc.partWay = false
      ∧ (∀ hi lo, lrcOf t = some [hi, lo] →
          u.lrcLog = s.lrcLog ++ [{ err := false, res := hi ++ lo }] ∧ u.fault = s.fault ∧ u.free = s.free)
      ∧ (lrcOf t = none → u.fault = .lrcInput ∧ ∃ res, u.lrcLog = s.lrcLog ++ [{ err := true, res := res }])

/-- Every LRC beat completes. A beat that is not the last leaves everything but the unit's scratch as it was, with the string
part-way in; the last beat ends the string with exactly one answer, whose `lrc_err` tells whether F_LRC_INPUT was raised
(42_lrc.md section 2; the list of answers is the model's, log 15). -/
def Obligations.LrcBeatCompletes : Prop :=
  ∀ (last : Bool) (c : Byte) (s : State), ∃ t, exec (.lrc last c) s = .next t
    ∧ (last = false → { t with lrc := s.lrc } = s ∧ t.lrc.partWay = true)
    ∧ (last = true → t.lrc.partWay = false
        ∧ { t with lrc := s.lrc, lrcLog := s.lrcLog, fault := s.fault, free := s.free } = s
        ∧ ∃ a, t.lrcLog = s.lrcLog ++ [a] ∧ t.fault = if a.err then .lrcInput else s.fault)

/-- R104. F_LRC_INPUT, code 4, is raised at the last beat of a malformed string: FAULT becomes 4 and `lrc_err` is 1 for that
result; ENCREG, UPDATE and INIT never raise it, nor does the forming of their frames. -/
def Obligations.LrcInputFault : Prop :=
  (∀ (t : Text) (s : State), t ≠ [] → s.lrc.partWay = false → s.fault = .noFault →
    ∃ u, runAll (lrcBeats t) s = .next u
      ∧ (lrcOf t = none ↔ u.fault = .lrcInput)
      ∧ (lrcOf t = none → faultBits u.fault = 4 ∧ (u.lrcLog.getLast?.map LrcAnswer.err) = some true
          ∧ { u with fault := s.fault, lrc := s.lrc, lrcLog := s.lrcLog, free := s.free } = s))
  ∧ (∀ (t : Text) (s u : State), t ≠ [] → s.lrc.partWay = false → s.fault = .noFault →
    runAll (lrcBeats t).dropLast s = .next u → u.fault = .noFault)
  ∧ (∀ (i : Instr) (s u : State), (∃ k, i = .encreg k) ∨ i = .update ∨ i = .init → s.fault ≠ .lrcInput →
    exec i s = .next u → u.fault ≠ .lrcInput)
  ∧ (∀ s u : State, emit s = .next u → u.fault = s.fault)

-- FRAMES

/-- The register frame by character position: prefix, two digits per payload byte in rising index, padding zeros, and the
checksum of everything between the marker and it. The prefix of register 0 is `:1000000001100000`, those of registers 1 to
5 are the configuration's, log 10 (30_encoding.md sections 4 and 5, 43_frame_encoder.md section 1). -/
def Obligations.RegisterFrameLayout : Prop :=
  (∀ cfg : Config, regPrefix cfg 0 = ascii ":1000000001100000"
    ∧ [1, 2, 3, 4, 5].map (regPrefix cfg)
        = [cfg.prefix1, cfg.prefix2, cfg.prefix3, cfg.prefix4, cfg.prefix5].map prefixText)
  ∧ ∀ (cfg : Config) (pbs : Packed) (k : Nat) (r : RegRow), regTable[k]? = some r →
    ∃ f, regFrame cfg pbs k = some f
      ∧ (let p := (regPrefix cfg k).length
         f.length = p + 2 * r.count + 2 * r.pad + 2
         ∧ f.take p = regPrefix cfg k
         ∧ (∀ j, j < r.count → ∃ b, pbs[r.start + j]? = some b
              ∧ f[p + 2 * j]? = some (hexChar (b.extractLsb' 4 4))
              ∧ f[p + 2 * j + 1]? = some (hexChar (b.extractLsb' 0 4)))
         ∧ (∀ j, j < 2 * r.pad → f[p + 2 * r.count + j]? = some 0x30)
         ∧ lrcOf ((f.take (f.length - 2)).drop 1) = some (f.drop (f.length - 2)))

/-- R95. FRAMEOF by its table, for any prefixes, any packed stream and any register number of ENCREG; and the `emit` step
forms the frame from PBS as it stands at hand-over. -/
def Obligations.FrameOrder : Prop :=
  (∀ (cfg : Config) (pbs : Packed) (k : BitVec 3),
    (sequenceFrames cfg pbs .upd k
      = some (ascii ":01000303A257") :: (List.range 6).map (regFrame cfg pbs)
        ++ [some (ascii ":00000C01F3"), some (ascii ":0100030200FA"), some (ascii ":0100030600F6"),
            some (ascii ":0100030200FA"), some (ascii ":01000303A950")])
    ∧ (sequenceFrames cfg pbs .ini k
      = [some (ascii ":01000502FFF9"), some (ascii ":01000602FFF8"), some (ascii ":01000303A158"),
         some (ascii ":1000000004200006071E1E1E00080000000000005D"), some (ascii ":00000101FE"),
         some (ascii ":0100030200FA")])
    ∧ sequenceFrames cfg pbs .one k = [regFrame cfg pbs k.toNat])
  ∧ ∀ s t : State, emit s = .next t → ∃ f, frameOf Config.device s.pbs s.seq = some f ∧ t.txLog = s.txLog ++ [f]

/-- Every frame FDCORE can form, literal or register, is the marker and an even number of uppercase digits ending in the
checksum of those before it, and fits the frame buffer, sized by log 16 (43_frame_encoder.md section 5, 10_state.md
section 6). -/
def Obligations.EveryFrameIsWellFormed : Prop :=
  ∀ (cfg : Config) (pbs : Packed) (q : Seq) (f : Text), frameOf cfg pbs q = some f → FrameOk f ∧ f.length ≤ fbCap cfg

/-- The six registers start at 0, 12, 28, 44, 60, 76 and hold 12, 16, 16, 16, 16, 14 bytes, with two padding bytes at the
last only; each byte of PBS is in one of them and in no other; and the six payloads in order, without the padding, are the
hexadecimal rendering of all of PBS, each byte once (20_memory.md section 6, 43_frame_encoder.md section 5). -/
def Obligations.RegistersPartitionThePackedStream : Prop :=
  regTable.map (fun r : RegRow => (r.start, r.count, r.pad))
    = [(0, 12, 0), (12, 16, 0), (28, 16, 0), (44, 16, 0), (60, 16, 0), (76, 14, 2)]
  ∧ (∀ i, i < 90 → ∃ (k : Nat) (r : RegRow), regTable[k]? = some r ∧ r.start ≤ i ∧ i < r.start + r.count
    ∧ ∀ (k' : Nat) (r' : RegRow), regTable[k']? = some r' → r'.start ≤ i → i < r'.start + r'.count → k' = k)
  ∧ ∀ pbs : Packed,
    regTable.flatMap (fun r : RegRow => hexText ((pbs.toList.drop r.start).take r.count)) = hexText pbs.toList

/-- Changing one byte of PBS changes the frame of the register that holds it and of no other (95_test_vectors.md section 1.2,
property S14, which the spec derives). -/
def Obligations.OneByteChangesOneRegisterFrame : Prop :=
  ∀ (cfg : Config) (pbs : Packed) (i : Nat) (hi : i < 90) (b : Byte), b ≠ pbs[i]'hi →
    ∀ (k : Nat) (r : RegRow), regTable[k]? = some r →
      (regFrame cfg (pbs.set i b hi) k ≠ regFrame cfg pbs k ↔ r.start ≤ i ∧ i < r.start + r.count)

/-- A prefix string is read into the configuration exactly when it starts with the marker and goes on with an even number,
at least two, of uppercase hexadecimal digits, and its prefix is then that string (30_encoding.md section 5; how the
configuration holds a prefix is the model's, log 10). -/
def Obligations.IllFormedPrefixRefused : Prop :=
  ∀ t : Text,
    ((∃ p, readPrefix? t = some p) ↔
      t.head? = some marker ∧ t.tail.all isUpperHex = true ∧ t.tail.length % 2 = 0 ∧ 2 ≤ t.tail.length)
    ∧ ∀ p, readPrefix? t = some p ↔ prefixText p = t

-- SEQUENCES

/-- ENCREG k with k at most 5 and a packed stream completes: SEQ becomes (ONE, 0, k) and nothing else changes; no frame is
emitted by the command itself. UPDATE completes: it packs and SEQ becomes (UPD, 0, 0). INIT completes: SEQ becomes
(INI, 0, 0) (43_frame_encoder.md section 3). -/
def Obligations.CommandsStartSequences : Prop :=
  ∀ s : State,
    (∀ k : BitVec 3, k.toNat ≤ 5 → s.pbsV = true →
      ∃ t, exec (.encreg k) s = .next t ∧ t.seq = { kind := .one, idx := 0, k := k } ∧ { t with seq := s.seq } = s)
    ∧ (∃ t, exec .update s = .next t ∧ t.seq = { kind := .upd, idx := 0, k := 0 } ∧ t.pbs = pack s.pb ∧ t.pbsV = true
        ∧ { t with seq := s.seq, pbs := s.pbs, pbsV := s.pbsV, accb := s.accb } = s)
    ∧ (∃ t, exec .init s = .next t ∧ t.seq = { kind := .ini, idx := 0, k := 0 } ∧ { t with seq := s.seq } = s)

/-- R103. ENCREG k with k at most 5 raises F_PBS_INVALID, code 3, when PBS_V = 0: FAULT alone changes, so no frame is emitted
and SEQ stays as it was; UPDATE never raises it. -/
def Obligations.EncregUnpackedFault : Prop :=
  (∀ (k : BitVec 3) (s : State), k.toNat ≤ 5 → s.pbsV = false →
    ∃ t, exec (.encreg k) s = .next t ∧ faultBits t.fault = 3 ∧ t.txLog = s.txLog ∧ t.seq = s.seq
      ∧ { t with fault := s.fault } = s)
  ∧ ∀ s t : State, exec .update s = .next t → t.fault = s.fault

/-- The `emit` step: with a sequence running, no frame outstanding and a Transmitter that takes characters, the step hands
over FRAMEOF of SEQ, appended to TXLOG and held by the Transmitter, and sets TX_WAIT; its characters leave first to last,
with `tx_last` on the last one only; beside these only FB, FB_LEN and the dead scratch of the LRC unit change (43_frame_encoder.md section 4; one step for all characters of the frame, the scratch
and the Transmitter's record are the model's, logs 3, 13 and 17). -/
def Obligations.EmitHandsOverTheFrame : Prop :=
  ∀ s : State, s.Inv → (pinsNow s).rst = false → (pinsNow s).txReady = true → emitEnabled s = true →
    ∃ t f, step s = .next t ∧ frameOf Config.device s.pbs s.seq = some f
      ∧ t.txLog = s.txLog ++ [f] ∧ t.txWait = true ∧ t.tx = { (advance s).tx with held := some f }
      ∧ t.fbLen = f.length ∧ t.fb.take t.fbLen = f ∧ t.lrc.partWay = s.lrc.partWay
      ∧ (txBeats f).map Prod.fst = f ∧ (txBeats f).map Prod.snd = List.replicate (f.length - 1) false ++ [true]
      ∧ { t with txLog := s.txLog, txWait := s.txWait, tx := (advance s).tx, fb := s.fb, fbLen := s.fbLen, lrc := s.lrc }
          = advance s

/-- The `done` step: with a frame outstanding, a `tx_done` pulse clears TX_WAIT and moves SEQ to the next frame or, after the
last, to IDLE; the Transmitter has then sent the frame last handed over with the line terminator and drained the channel;
nothing else changes. Without a frame outstanding a pulse changes nothing a step without it would not
(43_frame_encoder.md section 4, 20_memory.md section 10; the Transmitter's record is the model's, log 13). -/
def Obligations.DoneAdvancesTheSequence : Prop :=
  (∀ s : State, s.Inv → (pinsNow s).rst = false → (pinsNow s).txDone = true → s.txWait = true →
    ∃ t f, step s = .next t ∧ t.txWait = false ∧ s.txLog.getLast? = some f
      ∧ (t.seq = if s.seq.idx.toNat + 1 < seqLen s.seq.kind then { s.seq with idx := s.seq.idx + 1 }
                 else { kind := .idle, idx := 0, k := 0 })
      ∧ t.tx = { held := none, inbound := [], channel := s.tx.channel ++ f ++ Config.lineEnd }
      ∧ { t with txWait := s.txWait, seq := s.seq, tx := (advance s).tx } = advance s)
  ∧ ∀ (s : State) (p : Pins) (ps : List Pins), s.pins = p :: ps → s.txWait = false →
      step s = step { s with pins := { p with txDone := false } :: ps }

/-- Without a confirmation a frame outstanding holds everything: FDCORE's state does not change, whatever else is offered
(20_memory.md section 10). -/
def Obligations.NoConfirmationNoProgress : Prop :=
  ∀ s t : State, s.Inv → s.txWait = true → (pinsNow s).rst = false → (pinsNow s).txDone = false → step s = .next t →
    State.sameCore s t ∧ t.cmds = s.cmds ∧ t.beats = s.beats

/-- What waits changes nothing of FDCORE and nothing that is offered. An idle FDCORE waits when neither port offers a word; a
running sequence whose frame is to go waits when the Transmitter does not take it, whatever the host offers
(30_encoding.md section 2, 43_frame_encoder.md section 4; the lists of offered words are the model's, log 2). -/
def Obligations.WaitingChangesNothing : Prop :=
  ∀ s : State, s.Inv → (pinsNow s).rst = false → s.txWait = false →
    (s.seq.kind = .idle → ((pinsNow s).cmdValid = false ∨ s.cmds = []) → ((pinsNow s).lrcValid = false ∨ s.beats = []) →
      ∃ t, step s = .next t ∧ State.sameCore s t ∧ t.cmds = s.cmds ∧ t.beats = s.beats)
    ∧ (s.seq.kind ≠ .idle → (pinsNow s).txReady = false →
      ∃ t, step s = .next t ∧ State.sameCore s t ∧ t.cmds = s.cmds ∧ t.beats = s.beats)

/-- From an accepted UPDATE, twelve times a step in which the Transmitter takes a frame and a step in which it confirms one,
whatever the other pins but reset: TXLOG has grown by exactly the twelve frames of the table, formed from the pack of the
PB at acceptance; FDCORE is idle, unfaulted, and PB is as it was (43_frame_encoder.md section 5; the list of pins is the
model's, log 1). -/
def Obligations.UpdateSendsItsTwelveFrames : Prop :=
  ∀ (s : State) (ws : List CmdWord) (p : Pins) (rounds : List (Pins × Pins)) (later : List Pins),
    s.Inv → s.Accepts 0x900000000 ws → rounds.length = 12 →
    (∀ q ∈ rounds, q.1.rst = false ∧ q.1.txReady = true ∧ q.2.rst = false ∧ q.2.txDone = true) →
    s.pins = p :: rounds.flatMap (fun q => [q.1, q.2]) ++ later →
    ∃ t, Host.Core.run core 25 s = .next t
      ∧ t.txLog.map some = s.txLog.map some ++ sequenceFrames Config.device (pack s.pb) .upd 0
      ∧ t.seq = { kind := .idle, idx := 0, k := 0 } ∧ t.txWait = false ∧ t.fault = .noFault
      ∧ t.pb = s.pb ∧ t.pbs = pack s.pb ∧ t.pbsV = true ∧ t.cmds = ws ∧ t.pins = later

/-- Under any pins but reset, the frames a running sequence has handed over are the first of its frames in order, formed from
PBS, and when the sequence ends it has handed over all of them; a command that starts a sequence starts it with none
(43_frame_encoder.md section 5, 20_memory.md section 8). -/
def Obligations.SequenceSendsItsFramesInOrder : Prop :=
  (∀ (base : List Text) (s t : State), s.Inv → busy s = true → Sending base s → (pinsNow s).rst = false →
    step s = .next t →
    (busy t = true → Sending base t)
    ∧ (busy t = false →
        t.txLog.map some = base.map some ++ sequenceFrames Config.device s.pbs s.seq.kind s.seq.k))
  ∧ ∀ s t : State, s.Inv → busy s = false → (pinsNow s).rst = false → step s = .next t → busy t = true →
      Sending s.txLog t

/-- TXLOG changes in a step without reset only by one frame at its end, and only when no frame was outstanding; then one is
(20_memory.md section 8). -/
def Obligations.AtMostOneFrameOutstanding : Prop :=
  ∀ s t : State, step s = .next t → (pinsNow s).rst = false → t.txLog ≠ s.txLog →
    (∃ f, t.txLog = s.txLog ++ [f]) ∧ s.txWait = false ∧ t.txWait = true

-- FAULTS, RESET, STATUS

/-- An instruction that raises a fault in an unfaulted state writes the code and nothing else; LRC also leaves its scratch and
its error answer and moves the model's counter of free values on, log 9 (60_exceptions.md section 5). -/
def Obligations.FaultWritesOnlyTheCode : Prop :=
  ∀ (i : Instr) (s t : State), exec i s = .next t → s.fault = .noFault → t.fault ≠ .noFault →
    ({ t with fault := s.fault } = s ∧ i.mnemonic ∈ ["TGLDOT", "ENCREG"])
    ∨ (i.mnemonic = "LRC" ∧ t.fault = .lrcInput
        ∧ { t with fault := s.fault, lrc := s.lrc, lrcLog := s.lrcLog, free := s.free } = s)

/-- R109. No instruction clears FAULT; with FAULT not 0 nothing is accepted and FAULT keeps its code, and FDCORE's state with
it, in every step but reset; reset clears it and clears PB. -/
def Obligations.OnlyResetClearsFault : Prop :=
  (∀ (i : Instr) (s t : State), s.fault ≠ .noFault → exec i s = .next t → t.fault ≠ .noFault)
  ∧ ∀ s t : State, s.Inv → s.fault ≠ .noFault → step s = .next t →
      ((pinsNow s).rst = false → t.fault = s.fault ∧ State.sameCore s t ∧ t.cmds = s.cmds ∧ t.beats = s.beats)
      ∧ ((pinsNow s).rst = true → t.fault = .noFault ∧ ∀ x y, x < 90 → y < 8 → pbGet t.pb x y = false)

/-- Priority: for ENCREG the register number is checked before PBS_V, so ENCREG 6 and 7 raise F_RESERVED_CMD in every state
(60_exceptions.md section 4). -/
def Obligations.EncregNumberCheckedFirst : Prop :=
  ∀ (k : BitVec 3) (s : State), 5 < k.toNat →
    ∃ t, exec (.encreg k) s = .next t ∧ t.fault = .reservedCmd ∧ { t with fault := s.fault } = s

/-- The state after reset, the values the spec gives: PB all off, PBS_V = 0, SEQ = (IDLE, 0, 0), TX_WAIT = 0, FAULT = 0,
STATUS = 0, TXLOG empty. That `cmd_ready` is 1 there, so that FDCORE waits for the first command, rests on the model's
reading that no LRC string is part-way in after reset, log 8 (10_state.md section 11). -/
def Obligations.ResetStateValues : Prop :=
  (∀ x y, x < 90 → y < 8 → pbGet State.reset.pb x y = false)
  ∧ State.reset.pbsV = false ∧ State.reset.seq = { kind := .idle, idx := 0, k := 0 } ∧ State.reset.txWait = false
  ∧ faultBits State.reset.fault = 0 ∧ status State.reset = 0x0000 ∧ State.reset.txLog = []
  ∧ cmdReady State.reset = true

/-- Reset takes priority over everything, from every state: a command offered in the same step is not accepted, a running
sequence is abandoned, a fault is cleared, and what the spec gives of the reset state holds (70_reset_and_hazards.md
section 1; that what is offered stays offered and that no LRC string is part-way in are the model's, logs 8 and 15). -/
def Obligations.ResetFromAnyState : Prop :=
  ∀ s : State, (pinsNow s).rst = true →
    ∃ t, step s = .next t ∧ (∀ x y, x < 90 → y < 8 → pbGet t.pb x y = false) ∧ t.pbsV = false
      ∧ t.seq = { kind := .idle, idx := 0, k := 0 } ∧ t.txWait = false ∧ t.fault = .noFault ∧ t.txLog = []
      ∧ t.lrc.partWay = false ∧ t.cmds = s.cmds ∧ t.beats = s.beats

/-- STATUS field by field, bit 15 always 0; the kinds IDLE, UPD, INI, ONE read 0, 1, 2, 3 and the fault codes 0 to 4
(10_state.md sections 3 and 5, 60_exceptions.md section 2). -/
def Obligations.StatusFields : Prop :=
  [SeqKind.idle, .upd, .ini, .one].map kindBits = [0, 1, 2, 3]
  ∧ [FaultCode.noFault, .reservedCmd, .tglRange, .pbsInvalid, .lrcInput].map faultBits = [0, 1, 2, 3, 4]
  ∧ ∀ s : State,
    (status s).extractLsb' 0 3 = faultBits s.fault ∧ (status s).getLsbD 3 = s.pbsV
    ∧ (status s).getLsbD 4 = decide (s.seq.kind ≠ .idle) ∧ (status s).getLsbD 5 = s.txWait
    ∧ (status s).extractLsb' 6 2 = kindBits s.seq.kind ∧ (status s).extractLsb' 8 4 = s.seq.idx
    ∧ (status s).extractLsb' 12 3 = s.seq.k ∧ (status s).getLsbD 15 = false

/-- What the display puts on the channel never reaches FDCORE: two states that differ only in the bytes waiting at the
Transmitter and in those arriving in this step take the same step, up to the Transmitter; and what the Transmitter has
written to the channel is the same, but in a reset while a sequence runs, of which nothing is said here (60_exceptions.md
section 3; the Transmitter's record is the model's, log 13; what such a reset leaves it with is open, log 14). -/
def Obligations.InboundBytesNeverReachFdcore : Prop :=
  ∀ (s : State) (p : Pins) (ps : List Pins) (waiting arriving : List Byte), s.Inv → s.pins = p :: ps →
    ∃ t u, step s = .next t
      ∧ step { s with pins := { p with inbound := arriving } :: ps, tx := { s.tx with inbound := waiting } } = .next u
      ∧ { t with tx := u.tx } = u ∧ (p.rst = false ∨ busy s = false → t.tx.channel = u.tx.channel)

-- THE INVARIANT

/-- The invariant holds at reset (10_state.md section 11; the values of FB and of a part-way string there are the model's,
logs 7 and 8). -/
def Obligations.ResetStateMeetsInvariant : Prop :=
  State.reset.Inv

/-- Every step from a state that meets the invariant answers a next state, and that state meets it: SEQ stays a legal
position, a frame is outstanding only while a sequence runs, a fault stands only at rest, the packed stream is there when a
register frame is wanted, and frames fit the frame buffer. So no run stops (10_state.md sections 3 and 4, 60_exceptions.md
section 5; what the Transmitter holds is log 13, what FB holds at reset log 7). -/
def Obligations.StepKeepsInvariantAndNeverStops : Prop :=
  ∀ s : State, s.Inv → ∃ t, step s = .next t ∧ t.Inv
end

