-- ==== Sys2Proof/Laws/Hex.lean ====
section
/-! SUPPORT. What the hexadecimal helpers do. -/

namespace Sys2Proof.Machine

open Sys2Proof

@[simp] theorem hexVal?_hexChar (n : BitVec 4) : hexVal? (hexChar n) = some n := by revert n; decide

@[simp] theorem isUpperHex_hexChar (n : BitVec 4) : isUpperHex (hexChar n) = true := by revert n; decide

/-- An uppercase digit is the rendering of its value. -/
theorem hexChar_of_upper (c : Byte) (h : isUpperHex c = true) : ∃ n, hexVal? c = some n ∧ hexChar n = c := by
  revert c; decide

@[simp] theorem hexText_nil : hexText [] = [] := rfl

@[simp] theorem hexText_cons (b : Byte) (bs : List Byte) :
    hexText (b :: bs) = hexChar (b.extractLsb' 4 4) :: hexChar (b.extractLsb' 0 4) :: hexText bs := rfl

@[simp] theorem hexText_append (as bs : List Byte) : hexText (as ++ bs) = hexText as ++ hexText bs := by
  simp [hexText]

@[simp] theorem length_hexText (bs : List Byte) : (hexText bs).length = 2 * bs.length := by
  induction bs with
  | nil => rfl
  | cons b bs ih => simp [ih]; omega

theorem digits_toNat (b : Byte) : 16 * (b.extractLsb' 4 4).toNat + (b.extractLsb' 0 4).toNat = b.toNat := by
  revert b; decide

/-- Rendering bytes and reading the digits back gives the bytes. -/
@[simp] theorem hexPairs?_hexText_append (bs : List Byte) (t : Text) :
    hexPairs? (hexText bs ++ t) = (hexPairs? t).map fun more => bs.map BitVec.toNat ++ more := by
  induction bs with
  | nil => cases h : hexPairs? t <;> simp [h]
  | cons b bs ih =>
    simp only [hexText_cons, List.cons_append, hexPairs?, hexVal?_hexChar, ih]
    cases h : hexPairs? t with
    | none => simp
    | some more => simp only [Option.map_some, List.map_cons, List.cons_append, digits_toNat]

@[simp] theorem hexPairs?_hexText (bs : List Byte) : hexPairs? (hexText bs) = some (bs.map BitVec.toNat) := by
  simpa [hexPairs?] using hexPairs?_hexText_append bs []

theorem all_upper_hexText (bs : List Byte) : (hexText bs).all isUpperHex = true := by
  induction bs with
  | nil => rfl
  | cons b bs ih => simp [ih]

end Sys2Proof.Machine
end

