-- ==== Sys2Proof/Laws/State.lean ====
section
/-! SUPPORT. What each named update of the state does to each field, so that no proof unfolds a record update. -/

namespace Sys2Proof.Machine

open Sys2Proof

variable (s : State)

@[simp] theorem setPb_pb (v : PixelBuf) : (setPb v s).pb = v := rfl
@[simp] theorem setPb_pbs (v : PixelBuf) : (setPb v s).pbs = s.pbs := rfl
@[simp] theorem setPb_pbsV (v : PixelBuf) : (setPb v s).pbsV = s.pbsV := rfl
@[simp] theorem setPb_seq (v : PixelBuf) : (setPb v s).seq = s.seq := rfl
@[simp] theorem setPb_txWait (v : PixelBuf) : (setPb v s).txWait = s.txWait := rfl
@[simp] theorem setPb_fault (v : PixelBuf) : (setPb v s).fault = s.fault := rfl
@[simp] theorem setPb_fb (v : PixelBuf) : (setPb v s).fb = s.fb := rfl
@[simp] theorem setPb_fbLen (v : PixelBuf) : (setPb v s).fbLen = s.fbLen := rfl
@[simp] theorem setPb_lrc (v : PixelBuf) : (setPb v s).lrc = s.lrc := rfl
@[simp] theorem setPb_accb (v : PixelBuf) : (setPb v s).accb = s.accb := rfl
@[simp] theorem setPb_txLog (v : PixelBuf) : (setPb v s).txLog = s.txLog := rfl
@[simp] theorem setPb_lrcLog (v : PixelBuf) : (setPb v s).lrcLog = s.lrcLog := rfl
@[simp] theorem setPb_tx (v : PixelBuf) : (setPb v s).tx = s.tx := rfl
@[simp] theorem setPb_cmds (v : PixelBuf) : (setPb v s).cmds = s.cmds := rfl
@[simp] theorem setPb_beats (v : PixelBuf) : (setPb v s).beats = s.beats := rfl
@[simp] theorem setPb_pins (v : PixelBuf) : (setPb v s).pins = s.pins := rfl
@[simp] theorem setPb_free (v : PixelBuf) : (setPb v s).free = s.free := rfl

@[simp] theorem setPacked_pb (v : Packed) (a : Byte) : (setPacked v a s).pb = s.pb := rfl
@[simp] theorem setPacked_pbs (v : Packed) (a : Byte) : (setPacked v a s).pbs = v := rfl
@[simp] theorem setPacked_pbsV (v : Packed) (a : Byte) : (setPacked v a s).pbsV = true := rfl
@[simp] theorem setPacked_seq (v : Packed) (a : Byte) : (setPacked v a s).seq = s.seq := rfl
@[simp] theorem setPacked_txWait (v : Packed) (a : Byte) : (setPacked v a s).txWait = s.txWait := rfl
@[simp] theorem setPacked_fault (v : Packed) (a : Byte) : (setPacked v a s).fault = s.fault := rfl
@[simp] theorem setPacked_fb (v : Packed) (a : Byte) : (setPacked v a s).fb = s.fb := rfl
@[simp] theorem setPacked_fbLen (v : Packed) (a : Byte) : (setPacked v a s).fbLen = s.fbLen := rfl
@[simp] theorem setPacked_lrc (v : Packed) (a : Byte) : (setPacked v a s).lrc = s.lrc := rfl
@[simp] theorem setPacked_accb (v : Packed) (a : Byte) : (setPacked v a s).accb = a := rfl
@[simp] theorem setPacked_txLog (v : Packed) (a : Byte) : (setPacked v a s).txLog = s.txLog := rfl
@[simp] theorem setPacked_lrcLog (v : Packed) (a : Byte) : (setPacked v a s).lrcLog = s.lrcLog := rfl
@[simp] theorem setPacked_tx (v : Packed) (a : Byte) : (setPacked v a s).tx = s.tx := rfl
@[simp] theorem setPacked_cmds (v : Packed) (a : Byte) : (setPacked v a s).cmds = s.cmds := rfl
@[simp] theorem setPacked_beats (v : Packed) (a : Byte) : (setPacked v a s).beats = s.beats := rfl
@[simp] theorem setPacked_pins (v : Packed) (a : Byte) : (setPacked v a s).pins = s.pins := rfl
@[simp] theorem setPacked_free (v : Packed) (a : Byte) : (setPacked v a s).free = s.free := rfl

@[simp] theorem setSeq_pb (q : Seq) : (setSeq q s).pb = s.pb := rfl
@[simp] theorem setSeq_pbs (q : Seq) : (setSeq q s).pbs = s.pbs := rfl
@[simp] theorem setSeq_pbsV (q : Seq) : (setSeq q s).pbsV = s.pbsV := rfl
@[simp] theorem setSeq_seq (q : Seq) : (setSeq q s).seq = q := rfl
@[simp] theorem setSeq_txWait (q : Seq) : (setSeq q s).txWait = s.txWait := rfl
@[simp] theorem setSeq_fault (q : Seq) : (setSeq q s).fault = s.fault := rfl
@[simp] theorem setSeq_fb (q : Seq) : (setSeq q s).fb = s.fb := rfl
@[simp] theorem setSeq_fbLen (q : Seq) : (setSeq q s).fbLen = s.fbLen := rfl
@[simp] theorem setSeq_lrc (q : Seq) : (setSeq q s).lrc = s.lrc := rfl
@[simp] theorem setSeq_accb (q : Seq) : (setSeq q s).accb = s.accb := rfl
@[simp] theorem setSeq_txLog (q : Seq) : (setSeq q s).txLog = s.txLog := rfl
@[simp] theorem setSeq_lrcLog (q : Seq) : (setSeq q s).lrcLog = s.lrcLog := rfl
@[simp] theorem setSeq_tx (q : Seq) : (setSeq q s).tx = s.tx := rfl
@[simp] theorem setSeq_cmds (q : Seq) : (setSeq q s).cmds = s.cmds := rfl
@[simp] theorem setSeq_beats (q : Seq) : (setSeq q s).beats = s.beats := rfl
@[simp] theorem setSeq_pins (q : Seq) : (setSeq q s).pins = s.pins := rfl
@[simp] theorem setSeq_free (q : Seq) : (setSeq q s).free = s.free := rfl

@[simp] theorem setLrc_pb (u : LrcUnit) : (setLrc u s).pb = s.pb := rfl
@[simp] theorem setLrc_pbs (u : LrcUnit) : (setLrc u s).pbs = s.pbs := rfl
@[simp] theorem setLrc_pbsV (u : LrcUnit) : (setLrc u s).pbsV = s.pbsV := rfl
@[simp] theorem setLrc_seq (u : LrcUnit) : (setLrc u s).seq = s.seq := rfl
@[simp] theorem setLrc_txWait (u : LrcUnit) : (setLrc u s).txWait = s.txWait := rfl
@[simp] theorem setLrc_fault (u : LrcUnit) : (setLrc u s).fault = s.fault := rfl
@[simp] theorem setLrc_fb (u : LrcUnit) : (setLrc u s).fb = s.fb := rfl
@[simp] theorem setLrc_fbLen (u : LrcUnit) : (setLrc u s).fbLen = s.fbLen := rfl
@[simp] theorem setLrc_lrc (u : LrcUnit) : (setLrc u s).lrc = u := rfl
@[simp] theorem setLrc_accb (u : LrcUnit) : (setLrc u s).accb = s.accb := rfl
@[simp] theorem setLrc_txLog (u : LrcUnit) : (setLrc u s).txLog = s.txLog := rfl
@[simp] theorem setLrc_lrcLog (u : LrcUnit) : (setLrc u s).lrcLog = s.lrcLog := rfl
@[simp] theorem setLrc_tx (u : LrcUnit) : (setLrc u s).tx = s.tx := rfl
@[simp] theorem setLrc_cmds (u : LrcUnit) : (setLrc u s).cmds = s.cmds := rfl
@[simp] theorem setLrc_beats (u : LrcUnit) : (setLrc u s).beats = s.beats := rfl
@[simp] theorem setLrc_pins (u : LrcUnit) : (setLrc u s).pins = s.pins := rfl
@[simp] theorem setLrc_free (u : LrcUnit) : (setLrc u s).free = s.free := rfl

@[simp] theorem answer_pb (a : LrcAnswer) : (answer a s).pb = s.pb := rfl
@[simp] theorem answer_pbs (a : LrcAnswer) : (answer a s).pbs = s.pbs := rfl
@[simp] theorem answer_pbsV (a : LrcAnswer) : (answer a s).pbsV = s.pbsV := rfl
@[simp] theorem answer_seq (a : LrcAnswer) : (answer a s).seq = s.seq := rfl
@[simp] theorem answer_txWait (a : LrcAnswer) : (answer a s).txWait = s.txWait := rfl
@[simp] theorem answer_fault (a : LrcAnswer) : (answer a s).fault = s.fault := rfl
@[simp] theorem answer_fb (a : LrcAnswer) : (answer a s).fb = s.fb := rfl
@[simp] theorem answer_fbLen (a : LrcAnswer) : (answer a s).fbLen = s.fbLen := rfl
@[simp] theorem answer_lrc (a : LrcAnswer) : (answer a s).lrc = s.lrc := rfl
@[simp] theorem answer_accb (a : LrcAnswer) : (answer a s).accb = s.accb := rfl
@[simp] theorem answer_txLog (a : LrcAnswer) : (answer a s).txLog = s.txLog := rfl
@[simp] theorem answer_lrcLog (a : LrcAnswer) : (answer a s).lrcLog = s.lrcLog ++ [a] := rfl
@[simp] theorem answer_tx (a : LrcAnswer) : (answer a s).tx = s.tx := rfl
@[simp] theorem answer_cmds (a : LrcAnswer) : (answer a s).cmds = s.cmds := rfl
@[simp] theorem answer_beats (a : LrcAnswer) : (answer a s).beats = s.beats := rfl
@[simp] theorem answer_pins (a : LrcAnswer) : (answer a s).pins = s.pins := rfl
@[simp] theorem answer_free (a : LrcAnswer) : (answer a s).free = s.free := rfl

@[simp] theorem answerError_pb : (answerError s).pb = s.pb := rfl
@[simp] theorem answerError_pbs : (answerError s).pbs = s.pbs := rfl
@[simp] theorem answerError_pbsV : (answerError s).pbsV = s.pbsV := rfl
@[simp] theorem answerError_seq : (answerError s).seq = s.seq := rfl
@[simp] theorem answerError_txWait : (answerError s).txWait = s.txWait := rfl
@[simp] theorem answerError_fault : (answerError s).fault = s.fault := rfl
@[simp] theorem answerError_fb : (answerError s).fb = s.fb := rfl
@[simp] theorem answerError_fbLen : (answerError s).fbLen = s.fbLen := rfl
@[simp] theorem answerError_lrc : (answerError s).lrc = s.lrc := rfl
@[simp] theorem answerError_accb : (answerError s).accb = s.accb := rfl
@[simp] theorem answerError_txLog : (answerError s).txLog = s.txLog := rfl
@[simp] theorem answerError_lrcLog : (answerError s).lrcLog = s.lrcLog ++ [{ err := true, res := Config.freeLrcRes s.free }] := rfl
@[simp] theorem answerError_tx : (answerError s).tx = s.tx := rfl
@[simp] theorem answerError_cmds : (answerError s).cmds = s.cmds := rfl
@[simp] theorem answerError_beats : (answerError s).beats = s.beats := rfl
@[simp] theorem answerError_pins : (answerError s).pins = s.pins := rfl
@[simp] theorem answerError_free : (answerError s).free = s.free + 1 := rfl

@[simp] theorem raiseFault_pb (f : FaultCode) : (raiseFault f s).pb = s.pb := rfl
@[simp] theorem raiseFault_pbs (f : FaultCode) : (raiseFault f s).pbs = s.pbs := rfl
@[simp] theorem raiseFault_pbsV (f : FaultCode) : (raiseFault f s).pbsV = s.pbsV := rfl
@[simp] theorem raiseFault_seq (f : FaultCode) : (raiseFault f s).seq = s.seq := rfl
@[simp] theorem raiseFault_txWait (f : FaultCode) : (raiseFault f s).txWait = s.txWait := rfl
@[simp] theorem raiseFault_fault (f : FaultCode) : (raiseFault f s).fault = f := rfl
@[simp] theorem raiseFault_fb (f : FaultCode) : (raiseFault f s).fb = s.fb := rfl
@[simp] theorem raiseFault_fbLen (f : FaultCode) : (raiseFault f s).fbLen = s.fbLen := rfl
@[simp] theorem raiseFault_lrc (f : FaultCode) : (raiseFault f s).lrc = s.lrc := rfl
@[simp] theorem raiseFault_accb (f : FaultCode) : (raiseFault f s).accb = s.accb := rfl
@[simp] theorem raiseFault_txLog (f : FaultCode) : (raiseFault f s).txLog = s.txLog := rfl
@[simp] theorem raiseFault_lrcLog (f : FaultCode) : (raiseFault f s).lrcLog = s.lrcLog := rfl
@[simp] theorem raiseFault_tx (f : FaultCode) : (raiseFault f s).tx = s.tx := rfl
@[simp] theorem raiseFault_cmds (f : FaultCode) : (raiseFault f s).cmds = s.cmds := rfl
@[simp] theorem raiseFault_beats (f : FaultCode) : (raiseFault f s).beats = s.beats := rfl
@[simp] theorem raiseFault_pins (f : FaultCode) : (raiseFault f s).pins = s.pins := rfl
@[simp] theorem raiseFault_free (f : FaultCode) : (raiseFault f s).free = s.free := rfl

@[simp] theorem handOver_pb (f : Text) : (handOver f s).pb = s.pb := rfl
@[simp] theorem handOver_pbs (f : Text) : (handOver f s).pbs = s.pbs := rfl
@[simp] theorem handOver_pbsV (f : Text) : (handOver f s).pbsV = s.pbsV := rfl
@[simp] theorem handOver_seq (f : Text) : (handOver f s).seq = s.seq := rfl
@[simp] theorem handOver_txWait (f : Text) : (handOver f s).txWait = true := rfl
@[simp] theorem handOver_fault (f : Text) : (handOver f s).fault = s.fault := rfl
@[simp] theorem handOver_fb (f : Text) : (handOver f s).fb = writeFb f s.fb := rfl
@[simp] theorem handOver_fbLen (f : Text) : (handOver f s).fbLen = f.length := rfl
@[simp] theorem handOver_lrc (f : Text) : (handOver f s).lrc = s.lrc := rfl
@[simp] theorem handOver_accb (f : Text) : (handOver f s).accb = s.accb := rfl
@[simp] theorem handOver_txLog (f : Text) : (handOver f s).txLog = s.txLog ++ [f] := rfl
@[simp] theorem handOver_lrcLog (f : Text) : (handOver f s).lrcLog = s.lrcLog := rfl
@[simp] theorem handOver_tx (f : Text) : (handOver f s).tx = { s.tx with held := some f } := rfl
@[simp] theorem handOver_cmds (f : Text) : (handOver f s).cmds = s.cmds := rfl
@[simp] theorem handOver_beats (f : Text) : (handOver f s).beats = s.beats := rfl
@[simp] theorem handOver_pins (f : Text) : (handOver f s).pins = s.pins := rfl
@[simp] theorem handOver_free (f : Text) : (handOver f s).free = s.free := rfl

@[simp] theorem confirm_pb : (confirm s).pb = s.pb := rfl
@[simp] theorem confirm_pbs : (confirm s).pbs = s.pbs := rfl
@[simp] theorem confirm_pbsV : (confirm s).pbsV = s.pbsV := rfl
@[simp] theorem confirm_seq : (confirm s).seq = seqAfterDone s.seq := rfl
@[simp] theorem confirm_txWait : (confirm s).txWait = false := rfl
@[simp] theorem confirm_fault : (confirm s).fault = s.fault := rfl
@[simp] theorem confirm_fb : (confirm s).fb = s.fb := rfl
@[simp] theorem confirm_fbLen : (confirm s).fbLen = s.fbLen := rfl
@[simp] theorem confirm_lrc : (confirm s).lrc = s.lrc := rfl
@[simp] theorem confirm_accb : (confirm s).accb = s.accb := rfl
@[simp] theorem confirm_txLog : (confirm s).txLog = s.txLog := rfl
@[simp] theorem confirm_lrcLog : (confirm s).lrcLog = s.lrcLog := rfl
@[simp] theorem confirm_tx : (confirm s).tx = sendHeld s.tx := rfl
@[simp] theorem confirm_cmds : (confirm s).cmds = s.cmds := rfl
@[simp] theorem confirm_beats : (confirm s).beats = s.beats := rfl
@[simp] theorem confirm_pins : (confirm s).pins = s.pins := rfl
@[simp] theorem confirm_free : (confirm s).free = s.free := rfl

@[simp] theorem advance_pb : (advance s).pb = s.pb := rfl
@[simp] theorem advance_pbs : (advance s).pbs = s.pbs := rfl
@[simp] theorem advance_pbsV : (advance s).pbsV = s.pbsV := rfl
@[simp] theorem advance_seq : (advance s).seq = s.seq := rfl
@[simp] theorem advance_txWait : (advance s).txWait = s.txWait := rfl
@[simp] theorem advance_fault : (advance s).fault = s.fault := rfl
@[simp] theorem advance_fb : (advance s).fb = s.fb := rfl
@[simp] theorem advance_fbLen : (advance s).fbLen = s.fbLen := rfl
@[simp] theorem advance_lrc : (advance s).lrc = s.lrc := rfl
@[simp] theorem advance_accb : (advance s).accb = s.accb := rfl
@[simp] theorem advance_txLog : (advance s).txLog = s.txLog := rfl
@[simp] theorem advance_lrcLog : (advance s).lrcLog = s.lrcLog := rfl
@[simp] theorem advance_tx : (advance s).tx = { s.tx with inbound := s.tx.inbound ++ (pinsNow s).inbound } := rfl
@[simp] theorem advance_cmds : (advance s).cmds = s.cmds := rfl
@[simp] theorem advance_beats : (advance s).beats = s.beats := rfl
@[simp] theorem advance_pins : (advance s).pins = s.pins.tail := rfl
@[simp] theorem advance_free : (advance s).free = s.free := rfl

@[simp] theorem resetCore_pb : (resetCore s).pb = State.reset.pb := rfl
@[simp] theorem resetCore_pbs : (resetCore s).pbs = State.reset.pbs := rfl
@[simp] theorem resetCore_pbsV : (resetCore s).pbsV = State.reset.pbsV := rfl
@[simp] theorem resetCore_seq : (resetCore s).seq = State.reset.seq := rfl
@[simp] theorem resetCore_txWait : (resetCore s).txWait = State.reset.txWait := rfl
@[simp] theorem resetCore_fault : (resetCore s).fault = State.reset.fault := rfl
@[simp] theorem resetCore_fb : (resetCore s).fb = State.reset.fb := rfl
@[simp] theorem resetCore_fbLen : (resetCore s).fbLen = State.reset.fbLen := rfl
@[simp] theorem resetCore_lrc : (resetCore s).lrc = State.reset.lrc := rfl
@[simp] theorem resetCore_accb : (resetCore s).accb = State.reset.accb := rfl
@[simp] theorem resetCore_txLog : (resetCore s).txLog = State.reset.txLog := rfl
@[simp] theorem resetCore_lrcLog : (resetCore s).lrcLog = State.reset.lrcLog := rfl
@[simp] theorem resetCore_tx : (resetCore s).tx = (if busy s then Config.freeFarSide s.free else s.tx) := rfl
@[simp] theorem resetCore_cmds : (resetCore s).cmds = s.cmds := rfl
@[simp] theorem resetCore_beats : (resetCore s).beats = s.beats := rfl
@[simp] theorem resetCore_pins : (resetCore s).pins = s.pins := rfl
@[simp] theorem resetCore_free : (resetCore s).free = (if busy s then s.free + 1 else s.free) := rfl

end Sys2Proof.Machine
end

