-- ==== Sys2Proof/Laws/Checksum.lean ====
section
/-! SUPPORT. What the LRC function and the LRC unit do to a whole string. -/

namespace Sys2Proof.Machine

open Sys2Proof

/-- The checksum of rendered bytes. -/
@[simp] theorem lrcOf_hexText (bs : List Byte) :
    lrcOf (hexText bs) = some (hex2 (lrcByte (bs.map BitVec.toNat).sum)) := by
  simp [lrcOf]

/-- A pair read with no digit latched adds its byte to ACC; anything else is marked. -/
theorem lrcFeed_pair (u : LrcUnit) (hp : u.ph = false) (h l : Byte) :
    (∃ a b, hexVal? h = some a ∧ hexVal? l = some b
      ∧ lrcFeed (lrcFeed u h) l
        = { u with acc := u.acc + 16 * a.setWidth 16 + b.setWidth 16, nib := a, ph := false })
    ∨ ((hexVal? h = none ∨ hexVal? l = none) ∧ (lrcFeed (lrcFeed u h) l).bad = true) := by
  cases hh : hexVal? h with
  | none =>
    right
    refine ⟨.inl rfl, ?_⟩
    cases hl : hexVal? l <;> simp [lrcFeed, hh, hl, hp]
  | some a =>
    cases hl : hexVal? l with
    | none => right; exact ⟨.inr rfl, by simp [lrcFeed, hh, hl, hp]⟩
    | some b => left; exact ⟨a, b, rfl, rfl, by simp [lrcFeed, hh, hl, hp]⟩

/-- Once a character was bad, the string stays malformed. -/
theorem lrcFeed_keeps_bad (u : LrcUnit) (c : Byte) (h : u.bad = true) : (lrcFeed u c).bad = true := by
  unfold lrcFeed
  cases hexVal? c with
  | none => rfl
  | some v => by_cases hp : u.ph = true <;> simp [hp, h]

theorem foldl_lrcFeed_keeps_bad (t : Text) (u : LrcUnit) (h : u.bad = true) : (t.foldl lrcFeed u).bad = true := by
  induction t generalizing u with
  | nil => exact h
  | cons c t ih => exact ih _ (lrcFeed_keeps_bad u c h)

/-- A character changes nothing about a string being part-way in. -/
@[simp] theorem lrcFeed_partWay (u : LrcUnit) (c : Byte) : (lrcFeed u c).partWay = u.partWay := by
  unfold lrcFeed
  cases hexVal? c with
  | none => rfl
  | some v => by_cases hp : u.ph = true <;> simp [hp]

@[simp] theorem foldl_lrcFeed_partWay (t : Text) (u : LrcUnit) : (t.foldl lrcFeed u).partWay = u.partWay := by
  induction t generalizing u with
  | nil => rfl
  | cons c t ih => simp [ih]

theorem pair_toBitVec (a b : BitVec 4) :
    (16 : BitVec 16) * a.setWidth 16 + b.setWidth 16 = BitVec.ofNat 16 (16 * a.toNat + b.toNat) := by
  revert a b; decide

/-- The unit after a whole string, from no digit latched: the sum modulo 2^16 in ACC if the string is well-formed, malformed
otherwise. -/
theorem foldl_lrcFeed (t : Text) (u : LrcUnit) (hp : u.ph = false) (hb : u.bad = false) :
    match hexPairs? t with
    | some bytes =>
        lrcMalformed (t.foldl lrcFeed u) = false ∧ (t.foldl lrcFeed u).acc = u.acc + BitVec.ofNat 16 bytes.sum
    | none => lrcMalformed (t.foldl lrcFeed u) = true := by
  induction t using hexPairs?.induct generalizing u with
  | case1 => simp [hexPairs?, lrcMalformed, hp, hb]
  | case2 c =>
    simp only [hexPairs?, List.foldl_cons, List.foldl_nil, lrcFeed]
    cases hexVal? c <;> simp [lrcMalformed, hp]
  | case3 h l rest hi lo more h3 h2 h1 ih =>
    rcases lrcFeed_pair u hp h l with ⟨a, b, ha, hb', hf⟩ | ⟨hbad, _⟩
    · simp only [List.foldl_cons, hf]
      have := ih { u with acc := u.acc + 16 * a.setWidth 16 + b.setWidth 16, nib := a, ph := false } rfl hb
      rw [h3] at this
      simp only [hexPairs?, ha, hb', h3]
      refine ⟨this.1, this.2.trans ?_⟩
      simp only [BitVec.add_assoc, pair_toBitVec, List.sum_cons, BitVec.ofNat_add]
    · rw [h1, h2] at hbad; simp at hbad
  | case4 h l rest hno ih =>
    have hnone : hexPairs? (h :: l :: rest) = none := by
      simp only [hexPairs?]
    rw [hnone]
    rcases lrcFeed_pair u hp h l with ⟨a, b, ha, hb', hf⟩ | ⟨_, hbad⟩
    · simp only [List.foldl_cons, hf]
      have := ih { u with acc := u.acc + 16 * a.setWidth 16 + b.setWidth 16, nib := a, ph := false } rfl hb
      cases h3 : hexPairs? rest with
      | none => rw [h3] at this; exact this
      | some more => exact (hno a b more ha hb' h3).elim
    · simp [lrcMalformed, foldl_lrcFeed_keeps_bad rest _ hbad]

end Sys2Proof.Machine
end

