-- ==== Sys2Proof/Laws/Decode.lean ====
section
/-! SUPPORT. The fields of a command word and what the partial decoders answer. -/

namespace Sys2Proof

@[simp] theorem opField_cmdWord (op : BitVec 4) (a b : BitVec 16) : opField (cmdWord op a b) = op := by
  apply BitVec.eq_of_getLsbD_eq
  intro i hi
  simp only [opField, cmdWord, BitVec.getLsbD_append, BitVec.getLsbD_extractLsb']
  have h1 : ¬ 32 + i < 16 := by omega
  have h2 : ¬ 32 + i - 16 < 16 := by omega
  have h3 : 32 + i - 16 - 16 = i := by omega
  simp [h1, h2, h3, hi]

@[simp] theorem aField_cmdWord (op : BitVec 4) (a b : BitVec 16) : aField (cmdWord op a b) = a := by
  apply BitVec.eq_of_getLsbD_eq
  intro i hi
  simp only [aField, cmdWord, BitVec.getLsbD_append, BitVec.getLsbD_extractLsb']
  have h1 : ¬ 16 + i < 16 := by omega
  have h3 : 16 + i - 16 = i := by omega
  simp [h1, h3, hi]

@[simp] theorem bField_cmdWord (op : BitVec 4) (a b : BitVec 16) : bField (cmdWord op a b) = b := by
  apply BitVec.eq_of_getLsbD_eq
  intro i hi
  simp only [bField, cmdWord, BitVec.getLsbD_append, BitVec.getLsbD_extractLsb']
  simp [hi]

/-- A command word is its three fields side by side. -/
theorem cmdWord_fields (w : CmdWord) : cmdWord (opField w) (aField w) (bField w) = w := by
  apply BitVec.eq_of_getLsbD_eq
  intro i hi
  simp only [opField, aField, bField, cmdWord, BitVec.getLsbD_append, BitVec.getLsbD_extractLsb']
  by_cases h1 : i < 16
  · simp [h1]
  · by_cases h2 : i < 32
    · have h3 : i - 16 < 16 := by omega
      have h4 : 16 + (i - 16) = i := by omega
      simp [h1, h3, h4]
    · have h3 : ¬ i - 16 < 16 := by omega
      have h4 : 32 + (i - 16 - 16) = i := by omega
      have h5 : i - 16 - 16 < 4 := by omega
      simp [h1, h3, h4, h5]

theorem decodePlain_instr {a b : BitVec 16} {i j : Instr} (h : decodePlain a b i = .instr j) :
    a = 0 ∧ b = 0 ∧ i = j := by
  unfold decodePlain at h
  split at h
  · rename_i hab
    cases h
    exact ⟨hab.1, hab.2, rfl⟩
  · cases h

theorem decodeEncreg_instr {a b : BitVec 16} {j : Instr} (h : decodeEncreg a b = .instr j) :
    a = 0 ∧ ∃ k : BitVec 3, b = k.setWidth 16 ∧ j = .encreg k := by
  unfold decodeEncreg at h
  split at h
  · rename_i hab
    cases h
    refine ⟨hab.1, _, ?_, rfl⟩
    apply BitVec.eq_of_getLsbD_eq
    intro i hi
    simp only [BitVec.getLsbD_setWidth, BitVec.getLsbD_extractLsb', Nat.zero_add]
    by_cases h3 : i < 3
    · simp [h3, hi]
    · have hz := congrArg (fun v : BitVec 13 => v.getLsbD (i - 3)) hab.2
      simp only [BitVec.getLsbD_extractLsb', BitVec.ofNat_eq_ofNat, BitVec.getLsbD_zero, show i - 3 < 13 by omega,
        decide_true, Bool.true_and, show 3 + (i - 3) = i by omega] at hz
      simp [h3, hz]
  · cases h

end Sys2Proof
end

