-- ==== Sys2Proof/Laws/Ops.lean ====
section
/-! SUPPORT. What each shared operation can do, said once: cells of the pixel buffer, the ports of a step. -/

namespace Sys2Proof.Machine

open Sys2Proof

@[simp] theorem getElem_mapAll {α β : Type} {n : Nat} (f : α → β) (v : Vector α n) (i : Nat) (h : i < n) :
    (mapAll f v)[i] = f v[i] := by
  simp [mapAll]

theorem pbGet_inside (pb : PixelBuf) {x y : Nat} (hx : x < 90) (hy : y < 8) : pbGet pb x y = pb[x][y] := by
  simp [pbGet, numCols, numRows, hx, hy]

theorem pbGet_outside (pb : PixelBuf) {x y : Nat} (h : ¬(x < 90 ∧ y < 8)) : pbGet pb x y = false := by
  simp [pbGet, numCols, numRows, h]

/-- A write moves exactly the one cell named. -/
theorem pbGet_pbSet (pb : PixelBuf) {x y : Nat} (hx : x < 90) (hy : y < 8) (v : Bool) (a b : Nat) :
    pbGet (pbSet pb x y v) a b = if a = x ∧ b = y then v else pbGet pb a b := by
  by_cases hab : a < 90 ∧ b < 8
  · obtain ⟨ha, hb⟩ := hab
    rw [pbGet_inside _ ha hb, pbGet_inside _ ha hb]
    by_cases h1 : a = x
    · subst h1
      by_cases h2 : b = y
      · subst h2; simp [pbSet, numCols, numRows, ha, hb]
      · simp [pbSet, numCols, numRows, ha, hy, h2, Ne.symm h2]
    · simp [pbSet, numCols, numRows, hx, hy, h1, Ne.symm h1]
  · rw [pbGet_outside _ hab, pbGet_outside _ hab]
    have : ¬(a = x ∧ b = y) := by rintro ⟨rfl, rfl⟩; exact hab ⟨hx, hy⟩
    simp [this]

theorem pbGet_pbFill (v : Bool) {x y : Nat} (hx : x < 90) (hy : y < 8) : pbGet (pbFill v) x y = v := by
  rw [pbGet_inside _ hx hy]; simp [pbFill]

theorem pbGet_pbInvert (pb : PixelBuf) {x y : Nat} (hx : x < 90) (hy : y < 8) :
    pbGet (pbInvert pb) x y = !pbGet pb x y := by
  rw [pbGet_inside _ hx hy, pbGet_inside _ hx hy]; simp [pbInvert]

/-- Two buffers that read the same in every cell are the same. -/
theorem pb_ext {a b : PixelBuf} (h : ∀ x y, x < 90 → y < 8 → pbGet a x y = pbGet b x y) : a = b := by
  apply Vector.ext
  intro x hx
  apply Vector.ext
  intro y hy
  have := h x y hx hy
  rwa [pbGet_inside _ hx hy, pbGet_inside _ hx hy] at this

@[simp] theorem pinsNow_cons (s : State) (p : Pins) (ps : List Pins) (h : s.pins = p :: ps) : pinsNow s = p := by
  simp [pinsNow, h]

/-- The conditions of acceptance do not see what `advance` changes. -/
@[simp] theorem cmdReady_advance (s : State) : cmdReady (advance s) = cmdReady s := rfl

@[simp] theorem lrcReady_advance (s : State) : lrcReady (advance s) = lrcReady s := rfl

@[simp] theorem emitEnabled_advance (s : State) : emitEnabled (advance s) = emitEnabled s := rfl

@[simp] theorem busy_advance (s : State) : busy (advance s) = busy s := rfl

@[simp] theorem cmdTransfer_advance (p : Pins) (s : State) : cmdTransfer p (advance s) = cmdTransfer p s := rfl

/-- All a step's transfer can be: the first command word, when FDCORE is ready; the first beat, when no command is
transferred; or nothing. -/
theorem transfer_cases (p : Pins) (s : State) :
    (∃ w ws, transfer p s = some (.cmd w, { s with cmds := ws }) ∧ s.cmds = w :: ws ∧ p.cmdValid = true
        ∧ cmdReady s = true)
    ∨ (∃ b bs, transfer p s = some (.beat b, { s with beats := bs }) ∧ s.beats = b :: bs ∧ p.lrcValid = true
        ∧ lrcReady s = true ∧ cmdTransfer p s = false)
    ∨ (transfer p s = none ∧ cmdTransfer p s = false ∧ (p.lrcValid && lrcReady s && !s.beats.isEmpty) = false) := by
  by_cases hc : cmdTransfer p s = true
  · left
    have h := hc
    simp only [cmdTransfer, Bool.and_eq_true, Bool.not_eq_true'] at h
    cases hcm : s.cmds with
    | nil => simp [hcm] at h
    | cons w ws => exact ⟨w, ws, by simp [transfer, hc, hcm], rfl, h.1.1, h.1.2⟩
  · right
    simp only [Bool.not_eq_true] at hc
    by_cases hl : (p.lrcValid && lrcReady s) = true
    · cases hb : s.beats with
      | nil => right; exact ⟨by simp [transfer, hc, hb], hc, by simp⟩
      | cons b bs =>
        left
        have h := hl
        simp only [Bool.and_eq_true] at h
        exact ⟨b, bs, by simp [transfer, hc, hb, h.1, h.2], rfl, h.1, h.2, hc⟩
    · right
      simp only [Bool.not_eq_true] at hl
      exact ⟨by simp [transfer, hc, hl], hc, by simp [hl]⟩

end Sys2Proof.Machine
end

