-- ==== Sys2Proof/Laws/Encoder.lean ====
section
/-! SUPPORT. Register frames as rendered bytes, and all the `emit` step can answer. -/

namespace Sys2Proof.Machine

open Sys2Proof

/-- The bytes a prefix renders. -/
def prefixBytes (cfg : Config) (k : Nat) : List Byte :=
  match k with
  | 0 => [0x10, 0x00, 0x00, 0x00, 0x01, 0x10, 0x00, 0x00]
  | 1 => cfg.prefix1.first :: cfg.prefix1.rest
  | 2 => cfg.prefix2.first :: cfg.prefix2.rest
  | 3 => cfg.prefix3.first :: cfg.prefix3.rest
  | 4 => cfg.prefix4.first :: cfg.prefix4.rest
  | 5 => cfg.prefix5.first :: cfg.prefix5.rest
  | _ => []

theorem regPrefix_eq (cfg : Config) {k : Nat} (hk : k < 6) : regPrefix cfg k = marker :: hexText (prefixBytes cfg k) := by
  interval_cases k
  · show ascii ":1000000001100000" = marker :: hexText [0x10, 0x00, 0x00, 0x00, 0x01, 0x10, 0x00, 0x00]
    decide
  all_goals rfl

/-- The slice of the packed stream that is register k's payload. -/
def payloadBytes (pbs : Packed) (r : RegRow) : List Byte := (pbs.toList.drop r.start).take r.count

/-- The bytes of a register frame between the marker and the checksum. -/
def bodyBytes (cfg : Config) (pbs : Packed) (k : Nat) (r : RegRow) : List Byte :=
  prefixBytes cfg k ++ payloadBytes pbs r ++ List.replicate r.pad 0

theorem regTable_lt {k : Nat} {r : RegRow} (h : regTable[k]? = some r) : k < 6 := by
  have := List.getElem?_eq_some_iff.mp h
  exact this.1

theorem regTable_some {k : Nat} (hk : k < 6) : ∃ r, regTable[k]? = some r := ⟨_, List.getElem?_eq_getElem (l := regTable) hk⟩

/-- A register frame's body is the marker and rendered bytes. -/
theorem regBody_eq (cfg : Config) (pbs : Packed) {k : Nat} {r : RegRow} (h : regTable[k]? = some r) :
    regBody cfg pbs k = some (marker :: hexText (bodyBytes cfg pbs k r)) := by
  simp [regBody, h, regPrefix_eq cfg (regTable_lt h), bodyBytes, payloadBytes]

/-- The checksum byte of a list of bytes. -/
def checkByte (bs : List Byte) : Byte := lrcByte (bs.map BitVec.toNat).sum

/-- REGFRAME answers for every register, and its frame is the marker, the body's bytes and their checksum byte. -/
theorem regFrame_eq (cfg : Config) (pbs : Packed) {k : Nat} {r : RegRow} (h : regTable[k]? = some r) :
    regFrame cfg pbs k
      = some (marker :: hexText (bodyBytes cfg pbs k r ++ [checkByte (bodyBytes cfg pbs k r)])) := by
  simp [regFrame, regBody_eq cfg pbs h, checkByte, hex2]

theorem regFrame_none (cfg : Config) (pbs : Packed) {k : Nat} (h : 6 ≤ k) : regFrame cfg pbs k = none := by
  have : regTable[k]? = none := by simp [regTable]; omega
  simp [regFrame, regBody, this]

theorem length_payloadBytes (pbs : Packed) {k : Nat} {r : RegRow} (h : regTable[k]? = some r) :
    (payloadBytes pbs r).length = r.count := by
  have hk := regTable_lt h
  interval_cases k <;> (simp [regTable] at h; subst h; simp [payloadBytes, numBytes])

theorem length_regFrame (cfg : Config) (pbs : Packed) {k : Nat} {r : RegRow} {f : Text} (h : regTable[k]? = some r)
    (hf : regFrame cfg pbs k = some f) : f.length = (regPrefix cfg k).length + 2 * r.count + 2 * r.pad + 2 := by
  rw [regFrame_eq cfg pbs h] at hf
  cases hf
  have := length_payloadBytes pbs h
  simp [regPrefix_eq cfg (regTable_lt h), bodyBytes, this]
  omega

/-- The characters of a frame leave in order. -/
theorem txBeats_chars (f : Text) : (txBeats f).map Prod.fst = f := by
  induction f using txBeats.induct with
  | case1 => rfl
  | case2 c => rfl
  | case3 c d rest ih => simp [txBeats, ih]

/-- `tx_last` goes with the last character of a frame and with no other. -/
theorem txBeats_last (f : Text) (hf : f ≠ []) :
    (txBeats f).map Prod.snd = List.replicate (f.length - 1) false ++ [true] := by
  induction f using txBeats.induct with
  | case1 => exact absurd rfl hf
  | case2 c => rfl
  | case3 c d rest ih =>
    have := ih (by simp)
    simp only [List.length_cons, Nat.add_sub_cancel] at this ⊢
    simp [txBeats, this, List.replicate_succ]

/-- All a sequence position can name. -/
theorem frameSource_cases (q : Seq) {src : FrameSource} (h : frameSource q = some src) :
    (∃ f, src = .literal f ∧ f ∈ litStart :: litEnd ++ litInit)
    ∨ ∃ k, src = .register k ∧ (q.kind = .upd ∧ k < 6 ∨ q.kind = .one ∧ k = q.k.toNat) := by
  unfold frameSource at h
  cases hk : q.kind with
  | idle => simp [hk] at h
  | upd =>
    simp only [hk] at h
    split at h
    · left; cases h; exact ⟨_, rfl, by simp⟩
    · split at h
      · right; cases h; exact ⟨_, rfl, .inl ⟨rfl, by omega⟩⟩
      · left
        obtain ⟨f, hf, rfl⟩ := Option.map_eq_some_iff.mp h
        exact ⟨f, rfl, by simp [List.mem_of_getElem? hf]⟩
  | ini =>
    simp only [hk] at h
    left
    obtain ⟨f, hf, rfl⟩ := Option.map_eq_some_iff.mp h
    exact ⟨f, rfl, by simp [List.mem_of_getElem? hf]⟩
  | one =>
    simp only [hk] at h
    split at h
    · right; cases h; exact ⟨_, rfl, .inr ⟨rfl, rfl⟩⟩
    · simp at h

/-- All the `emit` step can answer with a next state: the frame SEQ names, handed over; only the LRC scratch besides. -/
theorem emit_cases {s t : State} (h : emit s = .next t) :
    ∃ f u, frameOf Config.device s.pbs s.seq = some f ∧ u.partWay = s.lrc.partWay ∧ t = handOver f (setLrc u s) := by
  unfold emit at h
  unfold frameOf
  split at h
  · cases h
  · rename_i f hf
    cases h
    exact ⟨f, s.lrc, rfl, rfl, rfl⟩
  · rename_i k hk
    split at h
    · split at h
      · rename_i body f hb hf
        cases h
        exact ⟨f, lrcScratch body s.lrc, hf, by simp [lrcScratch], rfl⟩
      · cases h
    · cases h

end Sys2Proof.Machine
end

