-- ==== Sys2Proof/Laws/Flags.lean ====
section
/-! SUPPORT. The conditions of acceptance as propositions. -/

namespace Sys2Proof.Machine

open Sys2Proof

theorem busy_eq_false_iff (s : State) : busy s = false ↔ s.seq.kind = .idle := by simp [busy]

theorem faultFree_iff (s : State) : faultFree s = true ↔ s.fault = .noFault := by simp [faultFree]

theorem cmdReady_iff (s : State) : cmdReady s = true ↔ s.fault = .noFault ∧ busy s = false ∧ s.lrc.partWay = false := by
  simp [cmdReady, faultFree, and_assoc]

theorem emitEnabled_iff (s : State) : emitEnabled s = true ↔ busy s = true ∧ s.txWait = false ∧ s.fault = .noFault := by
  simp [emitEnabled, faultFree, and_assoc]

theorem lrcReady_iff (s : State) : lrcReady s = true ↔ s.lrc.partWay = true ∨ cmdReady s = true := by
  simp [lrcReady]

end Sys2Proof.Machine
end

