-- ==== Sys2Proof/Laws/Packer.lean ====
section
/-! SUPPORT. What the packer makes of a column and of a buffer. -/

namespace Sys2Proof.Machine

open Sys2Proof

/-- The eight placements and seven shifts over eight bits, as one finite check. -/
theorem placeBits (b0 b1 b2 b3 b4 b5 b6 b7 : Bool) (y : Fin 8) :
    (packColumn #v[b0, b1, b2, b3, b4, b5, b6, b7]).getLsbD y = #v[b0, b1, b2, b3, b4, b5, b6, b7][y] := by
  revert b0 b1 b2 b3 b4 b5 b6 b7 y; decide

/-- A column is its eight cells. -/
theorem column_eq (col : Vector Bool numRows) :
    col = #v[col[0], col[1], col[2], col[3], col[4], col[5], col[6], col[7]] := by
  apply Vector.ext
  intro i hi
  have : i < 8 := hi
  interval_cases i <;> rfl

/-- Row y ends in bit y (41_pack.md R80). -/
theorem getLsbD_packColumn (col : Vector Bool numRows) (y : Nat) (hy : y < 8) :
    (packColumn col).getLsbD y = col[y] := by
  have h := placeBits col[0] col[1] col[2] col[3] col[4] col[5] col[6] col[7] ⟨y, hy⟩
  rwa [← column_eq col] at h

@[simp] theorem getElem_pack (pb : PixelBuf) (x : Nat) (hx : x < 90) : (pack pb)[x] = packColumn pb[x] := by
  simp [pack]

@[simp] theorem execPack_eq (s : State) : execPack s = .next (runPack s) := rfl

end Sys2Proof.Machine
end

