-- ==== Sys2Proof/Laws/PerInstr.lean ====
section
/-! SUPPORT. One family of statements about every instruction as syntax, with a lemma per constructor. -/

namespace Sys2Proof.Laws.EncodingMatchesRow

open Sys2Proof

/-- The encoding of a command matches the row of the opcode table that bears its mnemonic; the encoding of an LRC beat has
`last` in bit 8 and the character below it, and it is no command word (30_encoding.md sections 2 and 3). -/
def Statement (i : Instr) : Prop :=
  match encode i with
  | .cmd w => ∃ r ∈ opRows, r.mnemonic = i.mnemonic ∧ r.hits w = true
  | .beat b => i = .lrc (b.getLsbD 8) (b.extractLsb' 0 8)

/-- A row whose mask covers the opcode alone is hit by every word with that opcode. -/
theorem hits_opcode (op : BitVec 4) (x y : BitVec 16) :
    cmdWord op x y &&& 0xF00000000 = (op ++ (0 : BitVec 32)) := by
  apply BitVec.eq_of_getLsbD_eq
  intro i hi
  rw [BitVec.getLsbD_and, cmdWord, BitVec.getLsbD_append, BitVec.getLsbD_append, BitVec.getLsbD_append,
    show (0xF00000000 : BitVec 36) = (0xF#4 ++ 0#32) from rfl, BitVec.getLsbD_append]
  by_cases h : i < 32
  · simp [h]
  · have h1 : ¬ i < 16 := by omega
    have h2 : ¬ i - 16 < 16 := by omega
    have h3 : i - 32 = 0 ∨ i - 32 = 1 ∨ i - 32 = 2 ∨ i - 32 = 3 := by omega
    rw [show i - 16 - 16 = i - 32 by omega]
    rcases h3 with h3 | h3 | h3 | h3 <;> simp [h, h1, h2, h3]

theorem setdot (x y : Coord) : Statement (.setdot x y) := by
  refine ⟨⟨"SETDOT", 0xF00000000, 0x100000000⟩, by decide, rfl, ?_⟩
  simp only [OpRow.hits, hits_opcode]
  decide

theorem clrdot (x y : Coord) : Statement (.clrdot x y) := by
  refine ⟨⟨"CLRDOT", 0xF00000000, 0x200000000⟩, by decide, rfl, ?_⟩
  simp only [OpRow.hits, hits_opcode]
  decide

theorem tgldot (x y : Coord) : Statement (.tgldot x y) := by
  refine ⟨⟨"TGLDOT", 0xF00000000, 0x300000000⟩, by decide, rfl, ?_⟩
  simp only [OpRow.hits, hits_opcode]
  decide

theorem allon : Statement .allon := ⟨⟨"ALLON", 0xFFFFFFFFF, 0x400000000⟩, by decide, rfl, by decide⟩

theorem alloff : Statement .alloff := ⟨⟨"ALLOFF", 0xFFFFFFFFF, 0x500000000⟩, by decide, rfl, by decide⟩

theorem invall : Statement .invall := ⟨⟨"INVALL", 0xFFFFFFFFF, 0x600000000⟩, by decide, rfl, by decide⟩

theorem pack : Statement .pack := ⟨⟨"PACK", 0xFFFFFFFFF, 0x700000000⟩, by decide, rfl, by decide⟩

theorem encreg (k : BitVec 3) : Statement (.encreg k) := by
  refine ⟨⟨"ENCREG", 0xFFFFFFFF8, 0x800000000⟩, by decide, rfl, ?_⟩
  revert k
  decide

theorem update : Statement .update := ⟨⟨"UPDATE", 0xFFFFFFFFF, 0x900000000⟩, by decide, rfl, by decide⟩

theorem init : Statement .init := ⟨⟨"INIT", 0xFFFFFFFFF, 0xA00000000⟩, by decide, rfl, by decide⟩

theorem lrc (last : Bool) (c : Byte) : Statement (.lrc last c) := by
  show Instr.lrc last c = .lrc _ _
  revert last c
  decide

end Sys2Proof.Laws.EncodingMatchesRow
end

