-- ==== Sys2Proof/Laws/Step.lean ====
section
/-! SUPPORT. All a step can answer with a next state, said once. -/

namespace Sys2Proof.Machine

open Sys2Proof

/-- All `exec` can answer, by effect: a write of the pixel buffer, a pack, a sequence started, a fault raised, or a beat. -/
theorem exec_cases {i : Instr} {s t : State} (h : exec i s = .next t) :
    (∃ pb, t = setPb pb s ∧ ((∃ x y, i = .setdot x y ∨ i = .clrdot x y ∨ i = .tgldot x y)
        ∨ i = .allon ∨ i = .alloff ∨ i = .invall))
    ∨ (i = .pack ∧ t = runPack s)
    ∨ (i = .update ∧ t = setSeq { kind := .upd, idx := 0, k := 0 } (runPack s))
    ∨ (i = .init ∧ t = setSeq { kind := .ini, idx := 0, k := 0 } s)
    ∨ (∃ k, i = .encreg k ∧ k.toNat ≤ 5 ∧ s.pbsV = true ∧ t = setSeq { kind := .one, idx := 0, k := k } s)
    ∨ (∃ k, i = .encreg k ∧ 5 < k.toNat ∧ t = raiseFault .reservedCmd s)
    ∨ (∃ k, i = .encreg k ∧ k.toNat ≤ 5 ∧ s.pbsV = false ∧ t = raiseFault .pbsInvalid s)
    ∨ (∃ x y, i = .tgldot x y ∧ inRange (coord x) (coord y) = false ∧ t = raiseFault .tglRange s)
    ∨ (∃ c, i = .lrc false c ∧ t = setLrc (lrcFeed (lrcStart s.lrc) c) s)
    ∨ (∃ c, i = .lrc true c ∧ lrcMalformed (lrcFeed (lrcStart s.lrc) c) = false
        ∧ t = answer { err := false, res := lrcResult (lrcFeed (lrcStart s.lrc) c) }
            (setLrc { lrcFeed (lrcStart s.lrc) c with partWay := false } s))
    ∨ (∃ c, i = .lrc true c ∧ lrcMalformed (lrcFeed (lrcStart s.lrc) c) = true
        ∧ t = raiseFault .lrcInput (answerError (setLrc { lrcFeed (lrcStart s.lrc) c with partWay := false } s))) := by
  cases i with
  | setdot x y =>
    left
    simp only [exec, execSetdot, writeDot, Host.Outcome.next.injEq] at h
    split at h
    · exact ⟨_, h.symm, .inl ⟨x, y, .inl rfl⟩⟩
    · exact ⟨s.pb, h.symm, .inl ⟨x, y, .inl rfl⟩⟩
  | clrdot x y =>
    left
    simp only [exec, execClrdot, writeDot, Host.Outcome.next.injEq] at h
    split at h
    · exact ⟨_, h.symm, .inl ⟨x, y, .inr (.inl rfl)⟩⟩
    · exact ⟨s.pb, h.symm, .inl ⟨x, y, .inr (.inl rfl)⟩⟩
  | tgldot x y =>
    simp only [exec, execTgldot] at h
    by_cases hr : inRange (coord x) (coord y) = true
    · simp only [hr, if_true, Host.Outcome.next.injEq] at h
      exact .inl ⟨_, h.symm, .inl ⟨x, y, .inr (.inr rfl)⟩⟩
    · simp only [hr, Bool.false_eq_true, if_false, Host.Outcome.next.injEq] at h
      simp only [Bool.not_eq_true] at hr
      simp [hr, h]
  | allon => left; cases h; exact ⟨_, rfl, by simp⟩
  | alloff => left; cases h; exact ⟨_, rfl, by simp⟩
  | invall => left; cases h; exact ⟨_, rfl, by simp⟩
  | pack => cases h; simp
  | update => cases h; simp
  | init => cases h; simp
  | encreg k =>
    simp only [exec, execEncreg] at h
    split at h
    · cases h; rename_i hk; simp [hk]
    · rename_i hk
      split at h
      · cases h; rename_i hv; simp [hv, Nat.le_of_not_lt hk]
      · cases h; rename_i hv; simp at hv; simp [hv, Nat.le_of_not_lt hk]
  | lrc last c =>
    simp only [exec, execLrc] at h
    cases last with
    | false => cases h; simp
    | true =>
      simp only [if_true] at h
      split at h
      · cases h; rename_i hm; simp [hm]
      · cases h; rename_i hm; simp at hm; simp [hm]

/-- Every instruction answers a next state; none stops. -/
theorem exec_answers (i : Instr) (s : State) : ∃ t, exec i s = .next t := by
  cases i with
  | tgldot x y => simp only [exec, execTgldot]; split <;> exact ⟨_, rfl⟩
  | encreg k => simp only [exec, execEncreg]; split <;> [skip; split] <;> exact ⟨_, rfl⟩
  | lrc last c => simp only [exec, execLrc]; split <;> [split; skip] <;> exact ⟨_, rfl⟩
  | _ => exact ⟨_, rfl⟩

/-- All a step can answer with a next state: a reset, a confirmation, a frame handed over, a word run, or a wait. -/
theorem step_cases {s t : State} (h : step s = .next t) :
    ((pinsNow s).rst = true ∧ t = resetCore (advance s))
    ∨ ((pinsNow s).rst = false ∧ (pinsNow s).txDone = true ∧ s.txWait = true ∧ t = confirm (advance s))
    ∨ ((pinsNow s).rst = false ∧ ((pinsNow s).txDone && s.txWait) = false ∧ (pinsNow s).txReady = true
        ∧ emitEnabled s = true ∧ emit (advance s) = .next t)
    ∨ ((pinsNow s).rst = false ∧ ((pinsNow s).txDone && s.txWait) = false
        ∧ ((pinsNow s).txReady && emitEnabled s) = false
        ∧ ((∃ w ws, s.cmds = w :: ws ∧ (pinsNow s).cmdValid = true ∧ cmdReady s = true
              ∧ runWord (.cmd w) { advance s with cmds := ws } = .next t)
           ∨ (∃ b bs, s.beats = b :: bs ∧ (pinsNow s).lrcValid = true ∧ lrcReady s = true
              ∧ cmdTransfer (pinsNow s) s = false
              ∧ exec (decodeBeat b) { advance s with beats := bs } = .next t)
           ∨ (transfer (pinsNow s) s = none ∧ t = advance s))) := by
  unfold step move at h
  split at h
  · cases h; rename_i hr; exact .inl ⟨hr, rfl⟩
  · rename_i hr
    simp only [Bool.not_eq_true] at hr
    right
    split at h
    · cases h
      rename_i hd
      simp only [Bool.and_eq_true] at hd
      exact .inl ⟨hr, hd.1, hd.2, rfl⟩
    · rename_i hd
      simp only [Bool.not_eq_true] at hd
      right
      split at h
      · rename_i he
        simp only [Bool.and_eq_true] at he
        exact .inl ⟨hr, hd, he.1, he.2, h⟩
      · rename_i he
        simp only [Bool.not_eq_true] at he
        refine .inr ⟨hr, hd, he, ?_⟩
        unfold serve at h
        rcases transfer_cases (pinsNow s) (advance s) with
          ⟨w, ws, ht, hc, hv, hrdy⟩ | ⟨b, bs, ht, hb, hv, hrdy, hn⟩ | ⟨ht, _⟩
        · rw [ht] at h; exact .inl ⟨w, ws, hc, hv, hrdy, h⟩
        · rw [ht] at h; exact .inr (.inl ⟨b, bs, hb, hv, hrdy, hn, h⟩)
        · rw [ht] at h
          cases h
          refine .inr (.inr ⟨?_, rfl⟩)
          rcases transfer_cases (pinsNow s) s with ⟨w, ws, h1, h2, h3, h4⟩ | ⟨b, bs, h1, h2, h3, h4, h5⟩ | ⟨h1, _⟩
          · simp [transfer, cmdTransfer, h2, h3, h4] at ht
          · simp [transfer, h2, h3, h4, h5] at ht
          · exact h1

end Sys2Proof.Machine
end

