-- ==== Sys2Proof/Tests/Slice0.lean ====
section
/-! SUPPORT. Tests. Expected values are those of spec/95_test_vectors.md (section named at each test) or of the rule named;
the second half holds, for each statement with hypotheses, a state and operands that meet them. -/

namespace Sys2Proof.Tests

open Sys2Proof Sys2Proof.Machine

-- HELPERS

/-- A view of the next state; nothing where the machine stops. -/
def view {α : Type} (f : State → α) (o : Host.Outcome State Fault Refusal) : Option α :=
  match o with
  | .next s => some (f s)
  | .fault _ | .refused _ => none

/-- The state right after reset with these command words offered. -/
def offering (ws : List CmdWord) : State := { State.reset with cmds := ws }

/-- The state right after reset with these beats offered. -/
def offeringBeats (bs : List Beat) : State := { State.reset with beats := bs }

/-- A state in which dots are lit. -/
def lit (dots : List (Nat × Nat)) : State :=
  { State.reset with pb := dots.foldl (fun pb d => pbSet pb d.1 d.2 true) State.reset.pb }

/-- An idle state with a packed stream. -/
def packed : State := { State.reset with pbsV := true }

/-- A sequence runs; no frame is outstanding. -/
def running (kind : SeqKind) (idx : BitVec 4) (k : BitVec 3) : State :=
  { packed with seq := { kind := kind, idx := idx, k := k } }

/-- The same with a frame outstanding. -/
def waiting (kind : SeqKind) (idx : BitVec 4) (k : BitVec 3) (log : List Text) : State :=
  { running kind idx k with
    txWait := true, txLog := log, tx := { held := log.getLast?, inbound := [0x21], channel := [] } }

/-- A fault is recorded. -/
def faulted : State := { State.reset with fault := .tglRange }

/-- An LRC string is part-way in: `0` has come. -/
def partWay : State := { State.reset with lrc := lrcFeed lrcClear 0x30 }

/-- Pins of a step in which nothing happens. -/
def quiet : Pins :=
  { rst := false, cmdValid := false, lrcValid := false, txReady := false, txDone := false, inbound := [] }

/-- The parts of the invariant that can be computed. -/
def invData (s : State) : Bool :=
  s.seq.inv && (!s.txWait || busy s) && (decide (s.fault = .noFault) || !busy s)
    && (!s.lrc.partWay || (!busy s && decide (s.fault = .noFault)))
    && (!(decide (s.seq.kind = .upd) || decide (s.seq.kind = .one)) || s.pbsV)
    && (!s.txWait || (s.tx.held.isSome && decide (s.tx.held = s.txLog.getLast?)))

theorem inv_of_data (s : State) (h : invData s = true) (hfb : s.fb = []) (hlen : s.fbLen = 0) : s.Inv := by
  simp only [invData, Bool.and_eq_true, Bool.or_eq_true, Bool.not_eq_true', decide_eq_true_eq, Bool.or_eq_false_iff,
    decide_eq_false_iff_not] at h
  obtain ⟨⟨⟨⟨⟨h1, h2⟩, h3⟩, h4⟩, h5⟩, h6⟩ := h
  refine ⟨h1, fun hw => ?_, fun hf => ?_, fun hp => ?_, fun hk => ?_, fun hw => ?_, ?_⟩
  · simpa [hw] using h2
  · exact h3.resolve_left hf
  · simpa [hp] using h4
  · rcases h5 with h5 | h5
    · exact absurd hk (by simpa using h5)
    · exact h5
  · simpa [hw] using h6
  · simp [hfb, hlen]

-- ENCODING. Words written out from 30_encoding.md R54 and R55, field by field.

/-- op 1, a = 89, b = 7 (section 2.1). -/
theorem test_decode_setdot : decode (.cmd ((0x1 : BitVec 4) ++ (0x0059 : BitVec 16) ++ (0x0007 : BitVec 16)))
    = .instr (.setdot 89 7) := by decide

/-- op 2, a = 3, b = -1 (section 2.1). -/
theorem test_decode_clrdot : decode (.cmd ((0x2 : BitVec 4) ++ (0x0003 : BitVec 16) ++ (0xFFFF : BitVec 16)))
    = .instr (.clrdot 3 (-1)) := by decide

/-- op 3, a = 90, b = 7 (section 2.1). -/
theorem test_decode_tgldot : decode (.cmd ((0x3 : BitVec 4) ++ (0x005A : BitVec 16) ++ (0x0007 : BitVec 16)))
    = .instr (.tgldot 90 7) := by decide

theorem test_decode_allon : decode (.cmd 0b010000000000000000000000000000000000) = .instr .allon := by decide

theorem test_decode_alloff : decode (.cmd 0b010100000000000000000000000000000000) = .instr .alloff := by decide

theorem test_decode_invall : decode (.cmd 0b011000000000000000000000000000000000) = .instr .invall := by decide

theorem test_decode_pack : decode (.cmd 0b011100000000000000000000000000000000) = .instr .pack := by decide

theorem test_decode_encreg : decode (.cmd 0b100000000000000000000000000000000101) = .instr (.encreg 5) := by decide

theorem test_decode_update : decode (.cmd 0b100100000000000000000000000000000000) = .instr .update := by decide

theorem test_decode_init : decode (.cmd 0b101000000000000000000000000000000000) = .instr .init := by decide

/-- R57: `last` in bit 8, the character below it. -/
theorem test_decode_lrc : decode (.beat 0b101000001) = .instr (.lrc true 0x41)
    ∧ decode (.beat 0b001000001) = .instr (.lrc false 0x41) := by decide

/-- The reserved words of section 2.1 and the last words that are not reserved. -/
theorem test_decode_reserved :
    [0x000000000, 0xB00000000, 0xC00000000, 0xD00000000, 0xE00000000, 0xF00000000, 0xFFFFFFFFF].map
        (fun w => decode (.cmd w)) = List.replicate 7 (.reserved .noSuchOp)
    ∧ [0x800000008, 0x800010000, 0x400000001, 0x900010000].map (fun w => decode (.cmd w))
        = List.replicate 4 (.reserved .operandNotZero)
    ∧ decode (.cmd 0x800000007) = .instr (.encreg 7) ∧ decode (.cmd 0xA00000000) = .instr .init := by decide

/-- The opcode table's rows have 36 bits, 40 in whole bytes, or 9 bits, 16 in whole bytes. -/
theorem test_decode_table_word : decodeTableWord 40 0x300590007 = some (.tgldot 89 7)
    ∧ decodeTableWord 16 0x141 = some (.lrc true 0x41) ∧ decodeTableWord 40 0x400000001 = none := by decide

/-- R66's written form. -/
theorem test_written : (Instr.clrdot (-1) 0).written = some "CLRDOT -1, 0" := by decide

/-- Ill-formed: ENCREG 6 and 7 name no register (30_encoding.md R64). -/
theorem test_wellformed_encreg :
    ([0, 5, 6, 7].map fun k => (Instr.encreg k).wellFormed) = [true, true, false, false] := by decide

/-- No other instruction has an ill-formed operand: out-of-range coordinates are well-formed. -/
theorem test_wellformed_others : (Instr.setdot 90 0x8000).wellFormed = true ∧ (Instr.tgldot (-1) 8).wellFormed = true
    ∧ (Instr.lrc true 0x47).wellFormed = true := by decide

-- PIXELS (section 2.2)

/-- Vector b, and the neighbour stays off. -/
theorem test_setdot_corner :
    view (fun s => (pbGet s.pb 89 7, pbGet s.pb 88 7)) (exec (.setdot 89 7) State.reset) = some (true, false) := by decide

/-- Vector c: -1 is not column 65535. -/
theorem test_setdot_clips : exec (.setdot (-1) 0) State.reset = .next State.reset := by rfl

/-- Vector f. -/
theorem test_clrdot : view (fun s => (pbGet s.pb 5 5, pbGet s.pb 5 4)) (runAll [.allon, .setdot 5 5, .clrdot 5 5] State.reset)
    = some (false, true) := by decide

/-- Vector h, one of its three. -/
theorem test_clrdot_clips : view (fun s => decide (s.pb = pbFill true)) (runAll [.allon, .clrdot 0 8] State.reset)
    = some true := by decide

/-- Vector j. -/
theorem test_tgldot : view (fun s => pbGet s.pb 89 7) (exec (.tgldot 89 7) State.reset) = some true
    ∧ view (fun s => pbGet s.pb 89 7) (exec (.tgldot 89 7) (lit [(89, 7)])) = some false := by decide

/-- Vector k: FAULT 2, the dot lit before stays. -/
theorem test_tgldot_range : view (fun s => (pbGet s.pb 2 2, status s)) (exec (.tgldot 90 7) (lit [(2, 2)]))
    = some (true, 0x0002) := by decide

/-- Vector n. -/
theorem test_allon : view (fun s => (pbGet s.pb 0 0, pbGet s.pb 89 7)) (exec .allon State.reset) = some (true, true) := by
  decide

/-- Vector o: PBS_V is still 0. -/
theorem test_alloff : view (fun s => (pbGet s.pb 44 3, s.pbsV)) (exec .alloff (lit [(44, 3)])) = some (false, false) := by
  decide

/-- Vector q. -/
theorem test_invall : view (fun s => (pbGet s.pb 0 0, pbGet s.pb 0 1)) (exec .invall (lit [(0, 0)]))
    = some (false, true) := by decide

-- PACKER (section 2.3)

/-- Vector d: byte 0 is 0x81, and vector e at (89,7). -/
theorem test_pack_bytes : view (fun s => (s.pbs[0], s.pbs[1], s.pbs[89], s.pbsV)) (exec .pack (lit [(0, 0), (0, 7), (89, 7)]))
    = some (0x81, 0x00, 0x80, true) := by decide

/-- Vector f. -/
theorem test_pack_row_order : view (fun s => s.pbs[5]) (exec .pack (lit [(5, 1), (5, 3), (5, 4)])) = some 0x1A := by decide

-- CHECKSUM (section 2.5)

/-- Well-formed strings, lowercase and the body of a literal frame among them. -/
theorem test_lrc_function : (["", "7F", "80", "8080", "FFFF", "aB", "01000502FF", "01000303a2"].map fun t => lrcOf (ascii t))
    = (["00", "81", "80", "00", "02", "55", "F9", "57"].map fun t => some (ascii t)) := by decide

/-- Malformed strings. -/
theorem test_lrc_malformed : (["0", "010", "0G", "g0", "0x", ":000", "01 0"].all fun t => lrcOf (ascii t) = none) = true := by
  decide

/-- Program P6: `FA` as 0x4641. -/
theorem test_lrc_port : view (fun s => s.lrcLog) (runAll (lrcBeats (ascii "0100030200")) State.reset)
    = some [{ err := false, res := 0x4641 }] := by decide

/-- Section 2.6: PACK, then LRC "0G", gives STATUS 0x000C. -/
theorem test_lrc_fault : view status (runAll (.pack :: lrcBeats (ascii "0G")) State.reset) = some 0x000C := by decide

-- FRAMES (section 2.4)

/-- Vector (f): two dots lit. Register 0 depends on no open prefix. -/
theorem test_regframe_zero : regFrame Config.recommended (pack (lit [(0, 0), (0, 7)]).pb) 0
    = some (ascii ":10000000011000008100000000000000000000005E") := by decide

/-- Vector (e) at registers 1 and 5, under the recommended prefixes [REC]. -/
theorem test_regframe_boundaries :
    let pbs := pack (lit [(11, 7), (12, 7), (27, 7), (28, 7), (43, 7), (44, 7), (59, 7), (60, 7), (75, 7), (76, 7), (89, 7)]).pb
    regFrame Config.recommended pbs 1 = some (ascii ":1000100080000000000000000000000000000080E0")
    ∧ regFrame Config.recommended pbs 5 = some (ascii ":1000500080000000000000000000000000800000A0") := by decide

/-- 30_encoding.md R62: a prefix with the marker missing, with an odd number of digits, or in lowercase is refused. -/
theorem test_prefix : readPrefix? (ascii ":10001000") ≠ none ∧ readPrefix? (ascii "10001000") = none
    ∧ readPrefix? (ascii ":1000100") = none ∧ readPrefix? (ascii ":10aa") = none ∧ readPrefix? (ascii ":") = none := by decide

-- SEQUENCES (section 2.6)

/-- ENCREG 5 after PACK: STATUS 0x50D8. -/
theorem test_encreg_status : view status (exec (.encreg 5) packed) = some 0x50D8 := by decide

/-- From reset, ENCREG 0 gives FAULT 3 and ENCREG 6 gives FAULT 1. -/
theorem test_encreg_faults : view status (exec (.encreg 0) State.reset) = some 0x0003
    ∧ view status (exec (.encreg 6) State.reset) = some 0x0001 := by decide

/-- UPDATE from reset: STATUS 0x0058. -/
theorem test_update_status : view status (exec .update State.reset) = some 0x0058 := by decide

/-- INIT from reset: KIND 2 and BUSY (10_state.md R16). -/
theorem test_init_status : view status (exec .init State.reset) = some 0x0090 := by decide

/-- The first `emit` of an UPDATE: STATUS 0x0078, the frame `:01000303A257`. -/
theorem test_emit_first : view (fun s => (status s, s.txLog)) (step (running .upd 0 0))
    = some (0x0078, [ascii ":01000303A257"]) := by decide

/-- The last `done`: STATUS 0x0008. -/
theorem test_done_last : view status (step { waiting .upd 11 0 [ascii ":01000303A950"] with
    pins := [{ quiet with txDone := true }] }) = some 0x0008 := by decide

-- FETCH

/-- A placed word runs in the very next step from reset. -/
theorem test_fetch_cmd : view (fun s => pbGet s.pb 89 7) (step (State.reset.withFetchWord 40 0x100590007)) = some true := by
  decide

theorem test_fetch_beat : view (fun s => s.lrc.partWay) (step (State.reset.withFetchWord 16 0x041)) = some true := by decide

/-- Section 2.6: word 0x000000000 gives STATUS 0x0001. -/
theorem test_fetch_reserved : view status (step (offering [0x000000000])) = some 0x0001 := by decide

-- WITNESSES, in the order of the statements

theorem test_witness_decode_then_encode : decode (.cmd 0x800000007) = .instr (.encreg 7)
    ∧ decode (.beat 0x000) = .instr (.lrc false 0) := by decide

theorem test_witness_opcode_rows : (⟨"ENCREG", 0xFFFFFFFF8, 0x800000000⟩ : OpRow) ∈ opRows
    ∧ (⟨"ENCREG", 0xFFFFFFFF8, 0x800000000⟩ : OpRow).hits 0x800000007 = true
    ∧ (⟨"ENCREG", 0xFFFFFFFF8, 0x800000000⟩ : OpRow).hits 0x800000008 = false := by decide

/-- A later beat of a string, in a state of the invariant; and the edges of readiness: a fault, a running sequence, a string
part-way in, a command offered beside a first beat. -/
theorem test_witness_readiness :
    ({ partWay with beats := [0x130] } : State).Inv ∧ partWay.lrc.partWay = true ∧ (pinsNow partWay).lrcValid = true
    ∧ [State.reset, faulted, running .ini 0 0, partWay].map cmdReady = [true, false, false, false]
    ∧ [State.reset, faulted, running .ini 0 0, partWay, offering [0x400000000]].map (fun s => lrcReadyPin (pinsNow s) s)
        = [true, false, false, true, false] :=
  ⟨inv_of_data _ (by decide) rfl rfl, by decide, rfl, by decide, by decide⟩

/-- A word accepted, and each kind of beat: a first one with no command offered, a later one with a command offered. -/
theorem test_witness_step_runs : (offering [0xA00000000]).Accepts 0xA00000000 []
    ∧ (offeringBeats [0x130]).AcceptsBeat 0x130 []
    ∧ ({ partWay with beats := [0x130], cmds := [0x400000000] } : State).AcceptsBeat 0x130 []
    ∧ decode (.cmd 0xA00000000) = .instr .init ∧ decode (.beat 0x130) = .instr (.lrc true 0x30) := by
  refine ⟨⟨rfl, rfl, rfl, rfl, rfl⟩, ⟨rfl, rfl, rfl, rfl, rfl, rfl⟩, ⟨rfl, rfl, rfl, rfl, rfl, rfl⟩, by decide, by decide⟩

/-- A word that matches no row, ENCREG 7, and a word that raises nothing. -/
theorem test_witness_reserved_command : (offering [0xB00000000]).Accepts 0xB00000000 []
    ∧ (∀ r ∈ opRows, r.hits 0xB00000000 = false) ∧ (offering [0x800000007]).Accepts 0x800000007 []
    ∧ view (fun t => t.fault) (step (offering [0x800000007])) = some .reservedCmd
    ∧ view (fun t => t.fault) (step (offering [0x400000000])) = some .noFault := by
  refine ⟨⟨rfl, rfl, rfl, rfl, rfl⟩, by decide, ⟨rfl, rfl, rfl, rfl, rfl⟩, by decide, by decide⟩

theorem test_witness_command_first :
    let s : State := { offering [0x400000000] with beats := [0x130] }
    s.Accepts 0x400000000 [] ∧ (pinsNow s).lrcValid = true ∧ s.lrc.partWay = false ∧ ∃ t, step s = .next t :=
  ⟨⟨rfl, rfl, rfl, rfl, rfl⟩, rfl, rfl, _, rfl⟩

/-- A running sequence, and a fault. -/
theorem test_witness_nothing_accepted :
    ((running .upd 0 0).Inv ∧ busy (running .upd 0 0) = true ∧ (pinsNow (running .upd 0 0)).rst = false
      ∧ ∃ t, step (running .upd 0 0) = .next t)
    ∧ (faulted.Inv ∧ faulted.fault ≠ .noFault ∧ ∃ t, step faulted = .next t) :=
  ⟨⟨inv_of_data _ (by decide) rfl rfl, rfl, rfl, _, rfl⟩, inv_of_data _ (by decide) rfl rfl, by decide, _, rfl⟩

/-- A string part-way in, with its last beat offered and without. -/
theorem test_witness_string_part_way :
    let s : State := { partWay with beats := [0x130] }
    s.Inv ∧ s.lrc.partWay = true ∧ (pinsNow s).rst = false ∧ view (fun t => t.lrc.partWay) (step s) = some false
    ∧ view (fun t => t.lrc.partWay) (step partWay) = some true :=
  ⟨inv_of_data _ (by decide) rfl rfl, by decide, rfl, by decide, by decide⟩

/-- Out of range at the first coordinate past the edge; in range at both ends. -/
theorem test_witness_ranges : inRange (coord 90) (coord 7) = false ∧ inRange (coord 89) (coord 8) = false
    ∧ inRange (coord 0xFFFF) (coord 0) = false ∧ inRange (coord 89) (coord 7) = true ∧ inRange (coord 0) (coord 0) = true
    ∧ ((0 : Int) ≤ (89 : Coord).toInt ∧ (89 : Coord).toInt ≤ 89 ∧ (0 : Int) ≤ (7 : Coord).toInt ∧ (7 : Coord).toInt ≤ 7) := by
  decide

theorem test_witness_pixels_change :
    let s := offering [0x600000000]
    s.Inv ∧ (pinsNow s).rst = false ∧ view (fun t => decide (t.pb ≠ s.pb)) (step s) = some true :=
  ⟨inv_of_data _ (by decide) rfl rfl, rfl, by decide⟩

/-- PBS_V set by PACK, and cleared by reset. -/
theorem test_witness_valid_changes :
    let s := offering [0x700000000]
    let u : State := { packed with pins := [{ quiet with rst := true }] }
    (s.Inv ∧ (pinsNow s).rst = false ∧ view (fun t => decide (t.pbsV ≠ s.pbsV)) (step s) = some true)
    ∧ (u.Inv ∧ (pinsNow u).rst = true ∧ view (fun t => t.pbsV) (step u) = some false) :=
  ⟨⟨inv_of_data _ (by decide) rfl rfl, rfl, by decide⟩, inv_of_data _ (by decide) rfl rfl, rfl, by decide⟩

/-- By PACK and by UPDATE. -/
theorem test_witness_packed_stream_changes :
    let s : State := { lit [(0, 0)] with cmds := [0x700000000] }
    let u : State := { lit [(0, 0)] with cmds := [0x900000000] }
    (s.Inv ∧ (pinsNow s).rst = false ∧ view (fun t => decide (t.pbs ≠ s.pbs)) (step s) = some true)
    ∧ (u.Inv ∧ (pinsNow u).rst = false ∧ view (fun t => decide (t.pbs ≠ u.pbs)) (step u) = some true) :=
  ⟨⟨inv_of_data _ (by decide) rfl rfl, rfl, by decide⟩, inv_of_data _ (by decide) rfl rfl, rfl, by decide⟩

/-- The characters at the edges of the three ranges of digits. -/
theorem test_witness_hex_digits : (ascii "/0:9@AFG`afg").map isHex
    = [false, true, false, true, false, true, true, false, false, true, true, false]
    ∧ hexVal? 0x66 = some 15 ∧ hexVal? 0x46 = some 15 := by decide

theorem test_witness_checksum : hexPairs? (ascii "01000502FF") = some [1, 0, 5, 2, 255]
    ∧ hexPairs? (ascii "01a2") = some [0x01, 0xA2] ∧ hexPairs? (ascii "A201") = some [0xA2, 0x01]
    ∧ ([0x01, 0xA2] : List Nat).Perm [0xA2, 0x01] ∧ ([0x01, 0xA2, 0x80] : List Byte).Perm [0x80, 0x01, 0xA2] := by decide

/-- A well-formed and a malformed string from reset. -/
theorem test_witness_lrc_port : ascii "7F" ≠ [] ∧ lrcOf (ascii "7F") = some [0x38, 0x31] ∧ ascii "0" ≠ []
    ∧ lrcOf (ascii "0") = none ∧ State.reset.lrc.partWay = false ∧ State.reset.fault = .noFault := by decide

/-- The beats but the last of a malformed string, the sequences, and an `emit`. -/
theorem test_witness_lrc_fault : view (fun u => u.fault) (runAll (lrcBeats (ascii "0G")).dropLast State.reset) = some .noFault
    ∧ view (fun u => u.fault) (exec (.encreg 5) State.reset) = some .pbsInvalid
    ∧ view (fun u => u.fault) (exec .update State.reset) = some .noFault
    ∧ view (fun u => u.fault) (emit (running .ini 5 0)) = some .noFault := by decide

theorem test_witness_register_rows : regTable[0]? = some ⟨0, 12, 0⟩ ∧ regTable[5]? = some ⟨76, 14, 2⟩ ∧ regTable[6]? = none := by
  decide

theorem test_witness_frame_order : view (fun t => t.txLog.length) (emit (running .one 0 0)) = some 1
    ∧ view (fun t => t.txLog) (emit (running .upd 11 0)) = some [ascii ":01000303A950"]
    ∧ frameOf Config.recommended State.reset.pbs { kind := .one, idx := 0, k := 5 }
        = some (ascii ":1000500000000000000000000000000000000000A0") := by decide

/-- A byte changed at a register's first index and at the last of the one before. -/
theorem test_witness_one_byte : (0x80 : Byte) ≠ State.reset.pbs[12] ∧ (0x80 : Byte) ≠ State.reset.pbs[11] := by decide

theorem test_witness_prefix : readPrefix? (ascii ":10001000") = some Config.recommended.prefix1
    ∧ prefixText Config.recommended.prefix1 = ascii ":10001000" := by decide

theorem test_witness_encreg : (5 : BitVec 3).toNat ≤ 5 ∧ packed.pbsV = true ∧ State.reset.pbsV = false
    ∧ 5 < (6 : BitVec 3).toNat ∧ 5 < (7 : BitVec 3).toNat := by decide

/-- The first and the last frame of an UPDATE, and a register frame. -/
theorem test_witness_emit :
    ((running .upd 0 0).Inv ∧ emitEnabled (running .upd 0 0) = true)
    ∧ ((running .upd 11 0).Inv ∧ emitEnabled (running .upd 11 0) = true)
    ∧ ((running .one 0 5).Inv ∧ emitEnabled (running .one 0 5) = true)
    ∧ (pinsNow (running .one 0 5)).rst = false ∧ (pinsNow (running .one 0 5)).txReady = true :=
  ⟨⟨inv_of_data _ (by decide) rfl rfl, rfl⟩, ⟨inv_of_data _ (by decide) rfl rfl, rfl⟩,
    ⟨inv_of_data _ (by decide) rfl rfl, rfl⟩, rfl, rfl⟩

/-- A confirmation before the last frame and after it; a pulse with nothing outstanding. -/
theorem test_witness_done :
    let s : State := { waiting .ini 4 0 [ascii ":00000101FE"] with pins := [{ quiet with txDone := true }] }
    let u : State := { waiting .ini 5 0 [ascii ":0100030200FA"] with pins := [{ quiet with txDone := true }] }
    let v : State := { State.reset with pins := [{ quiet with txDone := true }] }
    (s.Inv ∧ (pinsNow s).rst = false ∧ (pinsNow s).txDone = true ∧ s.txWait = true)
    ∧ (u.Inv ∧ (pinsNow u).rst = false ∧ (pinsNow u).txDone = true ∧ u.txWait = true)
    ∧ (v.pins = [{ quiet with txDone := true }] ∧ v.txWait = false) :=
  ⟨⟨inv_of_data _ (by decide) rfl rfl, rfl, rfl, rfl⟩, ⟨inv_of_data _ (by decide) rfl rfl, rfl, rfl, rfl⟩, rfl, rfl⟩

/-- Program P7: frame 3 of an UPDATE is never confirmed; the state waits, with STATUS 0x0378. -/
theorem test_witness_no_confirmation :
    let s := waiting .upd 3 0 [ascii ":01000303A257"]
    s.Inv ∧ s.txWait = true ∧ (pinsNow s).rst = false ∧ (pinsNow s).txDone = false ∧ status s = 0x0378
      ∧ ∃ t, step s = .next t :=
  ⟨inv_of_data _ (by decide) rfl rfl, rfl, rfl, rfl, by decide, _, rfl⟩

/-- An idle state with a string part-way in and no beat to come, and a sequence whose frame is not taken. -/
theorem test_witness_waiting :
    (partWay.Inv ∧ partWay.seq.kind = .idle ∧ partWay.txWait = false ∧ partWay.cmds = [] ∧ partWay.beats = []
      ∧ (pinsNow partWay).rst = false)
    ∧ ({ running .upd 11 0 with cmds := [0x400000000], pins := [quiet] } : State).Inv
    ∧ (running .upd 11 0).seq.kind ≠ .idle ∧ (running .upd 11 0).txWait = false ∧ quiet.txReady = false
    ∧ quiet.rst = false :=
  ⟨⟨inv_of_data _ (by decide) rfl rfl, rfl, rfl, rfl, rfl, rfl⟩, inv_of_data _ (by decide) rfl rfl, by decide, rfl, rfl, rfl⟩

/-- The pins of program P2: one step for the command, then twelve of a frame taken and a frame confirmed. -/
theorem test_witness_update_run :
    let rounds := List.replicate 12 (({ quiet with txReady := true } : Pins), ({ quiet with txDone := true } : Pins))
    let p : Pins := { quiet with cmdValid := true }
    let s : State := { offering [0x900000000] with pins := p :: rounds.flatMap (fun q => [q.1, q.2]) ++ [] }
    s.Inv ∧ s.Accepts 0x900000000 [] ∧ rounds.length = 12
      ∧ (∀ q ∈ rounds, q.1.rst = false ∧ q.1.txReady = true ∧ q.2.rst = false ∧ q.2.txDone = true) :=
  ⟨inv_of_data _ (by decide) rfl rfl, ⟨rfl, rfl, rfl, rfl, rfl⟩, rfl, by decide⟩

/-- In the middle of a sequence, at its end, and at its start. -/
theorem test_witness_sequence :
    let s := waiting .upd 0 0 [ascii ":01000303A257"]
    let u : State := { waiting .ini 5 0 [ascii ":01000502FFF9", ascii ":01000602FFF8", ascii ":01000303A158",
      ascii ":1000000004200006071E1E1E00080000000000005D", ascii ":00000101FE", ascii ":0100030200FA"] with
      pins := [{ quiet with txDone := true }] }
    (s.Inv ∧ busy s = true ∧ Sending [] s ∧ view busy (step s) = some true)
    ∧ (u.Inv ∧ busy u = true ∧ Sending [] u ∧ (pinsNow u).rst = false ∧ view busy (step u) = some false)
    ∧ ((offering [0xA00000000]).Inv ∧ busy (offering [0xA00000000]) = false ∧ view busy (step (offering [0xA00000000])) = some true) :=
  ⟨⟨inv_of_data _ (by decide) rfl rfl, rfl, rfl, by decide⟩, ⟨inv_of_data _ (by decide) rfl rfl, rfl, rfl, rfl, by decide⟩,
    inv_of_data _ (by decide) rfl rfl, rfl, by decide⟩

theorem test_witness_one_outstanding : (pinsNow (running .ini 0 0)).rst = false
    ∧ view (fun t => (t.txLog.length, t.txWait)) (step (running .ini 0 0)) = some (1, true) := by decide

/-- A fault by TGLDOT, by ENCREG and by LRC, from an unfaulted state. -/
theorem test_witness_fault_writes : State.reset.fault = .noFault
    ∧ view (fun t => t.fault) (exec (.tgldot 90 0) State.reset) = some .tglRange
    ∧ view (fun t => t.fault) (exec (.encreg 5) State.reset) = some .pbsInvalid
    ∧ view (fun t => t.fault) (exec (.lrc true 0x30) State.reset) = some .lrcInput := by decide

/-- A faulted state, without reset and with it. -/
theorem test_witness_only_reset_clears :
    let s : State := { faulted with cmds := [0x900000000] }
    let u : State := { faulted with pins := [{ quiet with rst := true }] }
    (s.Inv ∧ s.fault ≠ .noFault ∧ (pinsNow s).rst = false ∧ view (fun t => t.fault) (step s) = some .tglRange)
    ∧ (u.Inv ∧ u.fault ≠ .noFault ∧ (pinsNow u).rst = true ∧ view (fun t => t.fault) (step u) = some .noFault)
    ∧ view (fun t => t.fault) (exec .alloff faulted) = some .tglRange :=
  ⟨⟨inv_of_data _ (by decide) rfl rfl, by decide, rfl, by decide⟩,
    ⟨inv_of_data _ (by decide) rfl rfl, by decide, rfl, by decide⟩, by decide⟩

/-- A reset while a sequence runs. -/
theorem test_witness_reset : (pinsNow { running .upd 3 0 with pins := [{ quiet with rst := true }] }).rst = true
    ∧ view (fun t => (busy t, t.txLog)) (step { running .upd 3 0 with pins := [{ quiet with rst := true }] })
        = some (false, []) := by decide

theorem test_witness_inbound :
    let s : State := { running .ini 0 0 with pins := [{ quiet with txReady := true, inbound := [0x41] }] }
    s.Inv ∧ s.pins = [{ quiet with txReady := true, inbound := [0x41] }] ∧ (pinsNow s).rst = false :=
  ⟨inv_of_data _ (by decide) rfl rfl, rfl, rfl⟩

theorem test_witness_invariant : (offering [0x000000000]).Inv ∧ (waiting .one 0 5 [ascii ":00"]).Inv ∧ partWay.Inv :=
  ⟨inv_of_data _ (by decide) rfl rfl, inv_of_data _ (by decide) rfl rfl, inv_of_data _ (by decide) rfl rfl⟩

end Sys2Proof.Tests
end

section
/-! The cells and the packed stream (20_memory.md): what PACK and UPDATE answer, read bit by bit. -/

namespace Sys2Proof.Machine

open Sys2Proof

theorem exec_pack (s : State) : exec .pack s = .next (runPack s) := rfl

theorem exec_update (s : State) :
    exec .update s = .next (setSeq { kind := .upd, idx := 0, k := 0 } (runPack s)) := rfl

@[simp] theorem runPack_pb (s : State) : (runPack s).pb = s.pb := rfl

@[simp] theorem runPack_pbs (s : State) : (runPack s).pbs = pack s.pb := rfl

/-- Column x becomes byte x and row y its bit y (20_memory.md R31). -/
theorem getLsbD_pack (pb : PixelBuf) {x y : Nat} (hx : x < 90) (hy : y < 8) :
    ((pack pb)[x]'hx).getLsbD y = pbGet pb x y := by
  rw [getElem_pack pb x hx, getLsbD_packColumn pb[x] y hy, pbGet_inside pb hx hy]

/-- Settles O20: both commands store `pack` of the buffer and keep the buffer, so each bit is read by `getLsbD_pack`. -/
theorem packIsColumnMajor : Obligations.PackIsColumnMajor := by
  intro s
  refine ⟨_, _, exec_pack s, exec_update s, fun x y hx hy => ?_⟩
  have bit : ((pack s.pb)[x]'hx).getLsbD y = pbGet s.pb x y := getLsbD_pack s.pb hx hy
  simp [-getElem_pack, bit]

end Sys2Proof.Machine
end

section
/-! Hexadecimal digits (30_encoding.md R52): which characters ISHEX accepts, and what HEXVAL reads at a place of a digit
list. -/

namespace Sys2Proof.Machine

open Sys2Proof

/-- The 22 digits, over all 256 codes. -/
theorem isHex_iff_mem_digits (c : Byte) : isHex c = true ↔ c ∈ ascii "0123456789ABCDEFabcdef" := by
  revert c; decide

theorem isHex_eq_false_iff (c : Byte) : isHex c = false ↔ hexVal? c = none := by simp [isHex]

/-- A list of characters that HEXVAL reads, in order, as 0 to 15. -/
def DigitsInOrder (ds : Text) : Prop :=
  ds.map hexVal? = (List.range 16).map fun n => some (BitVec.ofNat 4 n)

theorem digitsInOrder_upper : DigitsInOrder (ascii "0123456789ABCDEF") := by unfold DigitsInOrder; decide

theorem digitsInOrder_lower : DigitsInOrder (ascii "0123456789abcdef") := by unfold DigitsInOrder; decide

/-- In such a list a digit's place is its value. -/
theorem DigitsInOrder.hexVal?_eq {ds : Text} (hds : DigitsInOrder ds) {n : Nat} (hn : n < 16) {c : Byte}
    (hc : ds[n]? = some c) : hexVal? c = some (BitVec.ofNat 4 n) := by
  have read : (ds.map hexVal?)[n]? = some (some (BitVec.ofNat 4 n)) := by
    rw [hds, List.getElem?_map, List.getElem?_range hn, Option.map_some]
  simpa [hc] using read

/-- Settles O25: the uppercase and the lowercase digits each stand in the order of their values, so an upper- or lowercase
letter at the same place reads as the same number. -/
theorem hexDigitReading : Obligations.HexDigitReading := by
  refine ⟨isHex_iff_mem_digits, fun c => (isHex_eq_false_iff c).mp, ?_, hexVal?_hexChar⟩
  rintro n hn c (upper | lower)
  · exact digitsInOrder_upper.hexVal?_eq hn upper
  · exact digitsInOrder_lower.hexVal?_eq hn lower

end Sys2Proof.Machine
end

section
/-! The range of a dot (40_pixel_ops.md R76): INRANGE as a comparison of signed operands, and how many operand pairs it
accepts. -/

namespace Sys2Proof.Machine

open Sys2Proof

theorem inRange_iff (x y : Int) : inRange x y = true ↔ 0 ≤ x ∧ x ≤ 89 ∧ 0 ≤ y ∧ y ≤ 7 := by
  simp [inRange, and_assoc]

theorem inRange_eq_false_of_neg {x : Int} (hx : x < 0) (y : Int) : inRange x y = false := by
  rw [← Bool.not_eq_true, inRange_iff]
  rintro ⟨nonneg, -⟩
  omega

/-- The operand's top bit is its sign (30_encoding.md R54). -/
theorem coord_eq_ite (a : Coord) :
    coord a = if a.toNat < 2 ^ 15 then (a.toNat : Int) else (a.toNat : Int) - 2 ^ 16 := by
  have sext : coord a = if 2 * a.toNat < 2 ^ 16 then (a.toNat : Int) else (a.toNat : Int) - (2 ^ 16 : Nat) :=
    BitVec.toInt_eq_toNat_cond a
  split <;> omega

/-- Between 0 and a bound below 2^15 the signed comparison is the unsigned one: the fields with the top bit set are
negative on one side and above the bound on the other. -/
theorem coord_between_iff (a : Coord) {n : Nat} (hn : n < 2 ^ 15) :
    (0 ≤ coord a ∧ coord a ≤ n) ↔ a.toNat < n + 1 := by
  have lt : a.toNat < 2 ^ 16 := a.isLt
  rw [coord_eq_ite]
  split <;> omega

/-- Of the 2^16 fields, those read as 0 to n are n + 1. -/
theorem card_coord_between {n : Nat} (hn : n < 2 ^ 15) :
    (Finset.univ.filter fun a : Coord => 0 ≤ coord a ∧ coord a ≤ n).card = n + 1 := by
  have back : ∀ m < n + 1, (BitVec.ofNat 16 m).toNat = m := fun m hm =>
    (BitVec.toNat_ofNat m 16).trans (Nat.mod_eq_of_lt (by omega))
  calc (Finset.univ.filter fun a : Coord => 0 ≤ coord a ∧ coord a ≤ n).card
      = (Finset.univ.filter fun a : Coord => a.toNat < n + 1).card := by
        simp only [coord_between_iff _ hn]
    _ = (Finset.range (n + 1)).card := by
        refine Finset.card_nbij' BitVec.toNat (BitVec.ofNat 16) ?_ ?_ ?_ ?_
        · intro a ha; simpa using ha
        · intro m hm; simpa [back m (Finset.mem_range.mp hm)] using hm
        · intro a _; simp
        · intro m hm; exact back m (Finset.mem_range.mp hm)
    _ = n + 1 := Finset.card_range _

/-- The pairs in range are the columns' fields times the rows' fields. -/
theorem filter_inRange_eq_product :
    (Finset.univ.filter fun p : Coord × Coord => inRange (coord p.1) (coord p.2) = true)
      = (Finset.univ.filter fun a : Coord => 0 ≤ coord a ∧ coord a ≤ (89 : Nat))
        ×ˢ (Finset.univ.filter fun b : Coord => 0 ≤ coord b ∧ coord b ≤ (7 : Nat)) := by
  ext p
  simp [inRange_iff, and_assoc]

/-- Settles O15: the pairs are counted as 90 columns times 8 rows, not by running through the 2^32 pairs. -/
theorem inRangeIsSignedComparison : Obligations.InRangeIsSignedComparison := by
  refine ⟨inRange_iff, coord_eq_ite, fun b => inRange_eq_false_of_neg (by decide) _, ?_⟩
  rw [filter_inRange_eq_product, Finset.card_product, card_coord_between (by omega), card_coord_between (by omega)]

end Sys2Proof.Machine
end

section
/-! The order of frames (43_frame_encoder.md R95): the table as a list of frame sources per kind, and FRAMEOF as the text
of a source. -/

namespace Sys2Proof.Machine

open Sys2Proof

/-- The frame a source stands for, with the register frames formed from the given PBS. -/
def sourceFrame (cfg : Config) (pbs : Packed) : FrameSource → Option Text
  | .literal f => some f
  | .register k => regFrame cfg pbs k

theorem frameOf_eq_bind (cfg : Config) (pbs : Packed) (q : Seq) :
    frameOf cfg pbs q = (frameSource q).bind (sourceFrame cfg pbs) := by
  cases h : frameSource q with
  | none => simp [frameOf, h]
  | some src => cases src <;> simp [frameOf, h, sourceFrame]

/-- The rows of R95's table for one kind of sequence, in order. -/
def kindSources (kind : SeqKind) (k : BitVec 3) : List FrameSource :=
  match kind with
  | .idle => []
  | .upd => .literal litStart :: (List.range 6).map .register ++ litEnd.map .literal
  | .ini => litInit.map .literal
  | .one => [.register k.toNat]

/-- Position by position, SEQ names the rows of the table. -/
theorem map_frameSource_range (kind : SeqKind) (k : BitVec 3) :
    (List.range (seqLen kind)).map (fun n => frameSource { kind := kind, idx := BitVec.ofNat 4 n, k := k })
      = (kindSources kind k).map some := by
  cases kind <;> rfl

theorem sequenceFrames_eq_map (cfg : Config) (pbs : Packed) (kind : SeqKind) (k : BitVec 3) :
    sequenceFrames cfg pbs kind k = (kindSources kind k).map (sourceFrame cfg pbs) := by
  have rows := congrArg (List.map fun src => src.bind (sourceFrame cfg pbs)) (map_frameSource_range kind k)
  simpa [sequenceFrames, frameOf_eq_bind, Function.comp_def] using rows

/-- The `emit` step evaluates FRAMEOF on PBS as it stands, and adds that one frame to TXLOG. -/
theorem emit_txLog {s t : State} (h : emit s = .next t) :
    ∃ f, frameOf Config.device s.pbs s.seq = some f ∧ t.txLog = s.txLog ++ [f] := by
  obtain ⟨f, u, hf, -, rfl⟩ := emit_cases h
  exact ⟨f, hf, by simp⟩

/-- Settles O33: each sequence's frames are the texts of its rows of the table, and `emit` appends FRAMEOF of SEQ. -/
theorem frameOrder : Obligations.FrameOrder := by
  refine ⟨fun cfg pbs k => ?_, fun s t => emit_txLog⟩
  simp only [sequenceFrames_eq_map]
  exact ⟨rfl, rfl, rfl⟩

end Sys2Proof.Machine
end

section
/-! Faults (60_exceptions.md): which instruction raises which code, and that a recorded fault stands until reset. -/

namespace Sys2Proof.Machine

open Sys2Proof

theorem exec_tgldot_outOfRange {x y : Coord} (s : State) (out : inRange (coord x) (coord y) = false) :
    exec (.tgldot x y) s = .next (raiseFault .tglRange s) := by
  simp [exec, execTgldot, out]

/-- Settles O14: the out-of-range branch of TGLDOT raises the fault and does nothing else. -/
theorem tgldotRangeFault : Obligations.TgldotRangeFault := by
  intro x y s out
  exact ⟨_, exec_tgldot_outOfRange s out, rfl, rfl, rfl⟩

theorem exec_encreg_unpacked {k : BitVec 3} {s : State} (hk : k.toNat ≤ 5) (unpacked : s.pbsV = false) :
    exec (.encreg k) s = .next (raiseFault .pbsInvalid s) := by
  simp [exec, execEncreg, hk, unpacked]

/-- Settles O39: ENCREG takes the branch of the unpacked stream; UPDATE packs and starts its sequence, and neither
writes FAULT. -/
theorem encregUnpackedFault : Obligations.EncregUnpackedFault := by
  refine ⟨fun k s hk unpacked => ⟨_, exec_encreg_unpacked hk unpacked, rfl, rfl, rfl, rfl⟩, fun s t h => ?_⟩
  rw [exec_update] at h
  cases h
  rfl

/-- An instruction keeps FAULT, or raises the fault of R101, R102, R103 or R104, each for its own instruction. -/
theorem exec_fault_cases {i : Instr} {s t : State} (h : exec i s = .next t) :
    t.fault = s.fault
    ∨ (∃ k, i = .encreg k ∧ 5 < k.toNat ∧ t.fault = .reservedCmd)
    ∨ (∃ x y, i = .tgldot x y ∧ t.fault = .tglRange)
    ∨ (∃ k, i = .encreg k ∧ t.fault = .pbsInvalid)
    ∨ ∃ c, i = .lrc true c ∧ t.fault = .lrcInput := by
  rcases exec_cases h with
    ⟨pb, rfl, -⟩ | ⟨-, rfl⟩ | ⟨-, rfl⟩ | ⟨-, rfl⟩ | ⟨k, -, -, -, rfl⟩ | ⟨k, hi, hk, rfl⟩ | ⟨k, hi, -, -, rfl⟩
    | ⟨x, y, hi, -, rfl⟩ | ⟨c, -, rfl⟩ | ⟨c, -, -, rfl⟩ | ⟨c, hi, -, rfl⟩
  · exact .inl rfl
  · exact .inl rfl
  · exact .inl rfl
  · exact .inl rfl
  · exact .inl rfl
  · exact .inr (.inl ⟨k, hi, hk, rfl⟩)
  · exact .inr (.inr (.inr (.inl ⟨k, hi, rfl⟩)))
  · exact .inr (.inr (.inl ⟨x, y, hi, rfl⟩))
  · exact .inl rfl
  · exact .inl rfl
  · exact .inr (.inr (.inr (.inr ⟨c, hi, rfl⟩)))

theorem exec_keeps_faulted {i : Instr} {s t : State} (faulted : s.fault ≠ .noFault) (h : exec i s = .next t) :
    t.fault ≠ .noFault := by
  rcases exec_fault_cases h with same | ⟨-, -, -, raised⟩ | ⟨-, -, -, raised⟩ | ⟨-, -, raised⟩ | ⟨-, -, raised⟩
  · rwa [same]
  all_goals simp [raised]

/-- A recorded fault stops everything (R108, R109): no frame is outstanding, none is emitted and nothing is accepted, so
a step without reset only lets time pass. -/
theorem step_faulted {s t : State} (inv : s.Inv) (faulted : s.fault ≠ .noFault) (running : (pinsNow s).rst = false)
    (h : step s = .next t) : t = advance s := by
  have noWait : s.txWait ≠ true := fun wait => by simpa [inv.faultIdle faulted] using inv.waitBusy wait
  have noEmit : emitEnabled s ≠ true := fun on => faulted ((emitEnabled_iff s).mp on).2.2
  have noCmd : cmdReady s ≠ true := fun ready => faulted ((cmdReady_iff s).mp ready).1
  have noBeat : lrcReady s ≠ true := fun ready => by
    rcases (lrcReady_iff s).mp ready with part | cmd
    · exact faulted (inv.stringIdle part).2
    · exact noCmd cmd
  rcases step_cases h with
    ⟨rst, -⟩ | ⟨-, -, wait, -⟩ | ⟨-, -, -, on, -⟩
    | ⟨-, -, -, ⟨w, ws, -, -, ready, -⟩ | ⟨b, bs, -, -, ready, -⟩ | ⟨-, rfl⟩⟩
  · simp [running] at rst
  · exact absurd wait noWait
  · exact absurd on noEmit
  · exact absurd ready noCmd
  · exact absurd ready noBeat
  · rfl

theorem step_reset {s : State} (rst : (pinsNow s).rst = true) : step s = .next (resetCore (advance s)) := by
  simp [step, move, rst]

theorem pbGet_reset {x y : Nat} (hx : x < 90) (hy : y < 8) : pbGet State.reset.pb x y = false :=
  pbGet_pbFill false hx hy

/-- Settles O47: `exec` only ever writes a fault's code into FAULT, a faulted step without reset is `advance`, and reset
puts FAULT and PB at their reset values. -/
theorem onlyResetClearsFault : Obligations.OnlyResetClearsFault := by
  refine ⟨fun i s t => exec_keeps_faulted, fun s t inv faulted h => ⟨fun running => ?_, fun rst => ?_⟩⟩
  · obtain rfl := step_faulted inv faulted running h
    exact ⟨rfl, rfl, rfl, rfl⟩
  · rw [step_reset rst] at h
    cases h
    exact ⟨rfl, fun x y => pbGet_reset⟩

end Sys2Proof.Machine
end

section
/-! F_LRC_INPUT (60_exceptions.md R104): a string on the LRC port as its beats, all but the last of which only feed the
unit. -/

namespace Sys2Proof.Machine

open Sys2Proof

theorem lrcBeats_concat (t : Text) (c : Byte) : lrcBeats (t ++ [c]) = t.map (.lrc false) ++ [.lrc true c] := by
  induction t with
  | nil => rfl
  | cons a t ih => cases t <;> simp_all [lrcBeats]

theorem dropLast_lrcBeats_concat (t : Text) (c : Byte) : (lrcBeats (t ++ [c])).dropLast = t.map (.lrc false) := by
  rw [lrcBeats_concat, List.dropLast_concat]

theorem runAll_append {is : List Instr} {s u : State} (h : runAll is s = .next u) (js : List Instr) :
    runAll (is ++ js) s = runAll js u := by
  induction is generalizing s with
  | nil => cases h; rfl
  | cons i is ih =>
    obtain ⟨t, ht⟩ := exec_answers i s
    simp only [runAll, ht, List.cons_append] at h ⊢
    exact ih h

theorem lrcStart_of_partWay {u : LrcUnit} (part : u.partWay = true) : lrcStart u = u := by simp [lrcStart, part]

theorem lrcStart_of_fresh {u : LrcUnit} (fresh : u.partWay = false) : lrcStart u = lrcClear := by
  simp [lrcStart, fresh]

@[simp] theorem lrcStart_partWay (u : LrcUnit) : (lrcStart u).partWay = true := by
  by_cases part : u.partWay = true
  · rw [lrcStart_of_partWay part, part]
  · rw [lrcStart_of_fresh (by simpa using part)]; rfl

/-- Beats without the last mark feed the unit, cleared for the first of them, and change nothing else. -/
theorem runAll_beats (t : Text) (s : State) :
    ∃ u, runAll (t.map (.lrc false)) s = .next (setLrc u s) ∧ lrcStart u = t.foldl lrcFeed (lrcStart s.lrc) := by
  induction t generalizing s with
  | nil => exact ⟨s.lrc, rfl, rfl⟩
  | cons c t ih =>
    obtain ⟨u, run, start⟩ := ih (setLrc (lrcFeed (lrcStart s.lrc) c) s)
    have part : lrcStart (lrcFeed (lrcStart s.lrc) c) = lrcFeed (lrcStart s.lrc) c := lrcStart_of_partWay (by simp)
    exact ⟨u, run, by simpa [part] using start⟩

/-- The unit ends malformed exactly on the strings that have no checksum (42_lrc.md R86, R88). -/
theorem lrcMalformed_foldl_lrcFeed (t : Text) :
    lrcMalformed (t.foldl lrcFeed lrcClear) = true ↔ lrcOf t = none := by
  have unit := foldl_lrcFeed t lrcClear rfl rfl
  cases read : hexPairs? t with
  | none => simp_all [lrcOf]
  | some bytes => simp_all [lrcOf]

theorem exec_lrc_malformed {c : Byte} {s : State} (bad : lrcMalformed (lrcFeed (lrcStart s.lrc) c) = true) :
    exec (.lrc true c) s
      = .next (raiseFault .lrcInput (answerError (setLrc { lrcFeed (lrcStart s.lrc) c with partWay := false } s))) := by
  simp [exec, execLrc, bad]

theorem exec_lrc_wellFormed {c : Byte} {s : State} (ok : lrcMalformed (lrcFeed (lrcStart s.lrc) c) = false) :
    exec (.lrc true c) s
      = .next (answer { err := false, res := lrcResult (lrcFeed (lrcStart s.lrc) c) }
          (setLrc { lrcFeed (lrcStart s.lrc) c with partWay := false } s)) := by
  simp [exec, execLrc, ok]

/-- A whole string ends in the fault and an error answer if it is malformed, in an answer alone if it is not. -/
theorem runAll_lrcBeats_cases {t : Text} {s : State} (ne : t ≠ []) (fresh : s.lrc.partWay = false) :
    (lrcOf t = none ∧ ∃ u, runAll (lrcBeats t) s = .next (raiseFault .lrcInput (answerError (setLrc u s))))
    ∨ (¬lrcOf t = none ∧ ∃ u a, runAll (lrcBeats t) s = .next (answer a (setLrc u s))) := by
  obtain rfl | ⟨t, c, rfl⟩ := t.eq_nil_or_concat'
  · exact absurd rfl ne
  obtain ⟨u, run, start⟩ := runAll_beats t s
  rw [lrcStart_of_fresh fresh] at start
  have whole : lrcFeed (lrcStart (setLrc u s).lrc) c = (t ++ [c]).foldl lrcFeed lrcClear := by simp [start]
  rw [← lrcMalformed_foldl_lrcFeed, ← whole, lrcBeats_concat, runAll_append run]
  by_cases bad : lrcMalformed (lrcFeed (lrcStart (setLrc u s).lrc) c) = true
  · exact .inl ⟨bad, _, by rw [runAll, exec_lrc_malformed bad]; rfl⟩
  · exact .inr ⟨bad, _, _, by rw [runAll, exec_lrc_wellFormed (by simpa using bad)]; rfl⟩

theorem runAll_dropLast_lrcBeats {t : Text} {s v : State} (ne : t ≠ []) (h : runAll (lrcBeats t).dropLast s = .next v) :
    ∃ u, v = setLrc u s := by
  obtain rfl | ⟨t, c, rfl⟩ := t.eq_nil_or_concat'
  · exact absurd rfl ne
  obtain ⟨u, run, -⟩ := runAll_beats t s
  rw [dropLast_lrcBeats_concat, run] at h
  cases h
  exact ⟨u, rfl⟩

/-- Only a beat with the last mark raises F_LRC_INPUT. -/
theorem exec_lrcInput {i : Instr} {s t : State} (h : exec i s = .next t) (before : s.fault ≠ .lrcInput)
    (after : t.fault = .lrcInput) : ∃ c, i = .lrc true c := by
  rcases exec_fault_cases h with same | ⟨-, -, -, raised⟩ | ⟨-, -, -, raised⟩ | ⟨-, -, raised⟩ | ⟨c, hi, -⟩
  · exact absurd (same.symm.trans after) before
  · simp [raised] at after
  · simp [raised] at after
  · simp [raised] at after
  · exact ⟨c, hi⟩

/-- Settles O31: a string's effect is `runAll_lrcBeats_cases`, and before its last beat only the unit changes; `exec`
raises the code for no other instruction, and `emit` does not write FAULT. -/
theorem lrcInputFault : Obligations.LrcInputFault := by
  refine ⟨fun t s ne fresh unfaulted => ?_, fun t s v ne _ unfaulted h => ?_, fun i s u start before h after => ?_,
    fun s v h => ?_⟩
  · rcases runAll_lrcBeats_cases ne fresh with ⟨bad, u, run⟩ | ⟨ok, u, a, run⟩
    · refine ⟨_, run, ⟨fun _ => rfl, fun _ => bad⟩, fun _ => ⟨rfl, by simp, rfl⟩⟩
    · refine ⟨_, run, ⟨fun bad => absurd bad ok, fun raised => ?_⟩, fun bad => absurd bad ok⟩
      simp [unfaulted] at raised
  · obtain ⟨u, rfl⟩ := runAll_dropLast_lrcBeats ne h
    exact unfaulted
  · obtain ⟨c, rfl⟩ := exec_lrcInput h before after
    simp at start
  · obtain ⟨f, u, -, -, rfl⟩ := emit_cases h
    rfl

end Sys2Proof.Machine
end

section
/-! F_RESERVED_CMD (60_exceptions.md R101): the words without a row in the opcode table are the ones that decode to no
instruction, and of the instructions ENCREG 6 and 7 alone raise the code. -/

namespace Sys2Proof

theorem eq_cmdWord_of_opField {w : CmdWord} {op : Nat} (hop : (opField w).toNat = op) :
    w = cmdWord (BitVec.ofNat 4 op) (aField w) (bField w) := by
  rw [← hop, BitVec.ofNat_toNat, BitVec.setWidth_eq, cmdWord_fields]

theorem encode_of_decodePlain {w : CmdWord} {op : Nat} {i j : Instr} (hop : (opField w).toNat = op)
    (enc : encode j = .cmd (cmdWord (BitVec.ofNat 4 op) 0 0)) (h : decodePlain (aField w) (bField w) j = .instr i) :
    encode i = .cmd w := by
  obtain ⟨ha, hb, rfl⟩ := decodePlain_instr h
  rw [enc, eq_cmdWord_of_opField hop, ha, hb]

theorem encode_of_decodeCmd {w : CmdWord} {i : Instr} (h : decodeCmd w = .instr i) : encode i = .cmd w := by
  unfold decodeCmd at h
  split at h
  next hop => cases h; exact congrArg _ (eq_cmdWord_of_opField hop).symm
  next hop => cases h; exact congrArg _ (eq_cmdWord_of_opField hop).symm
  next hop => cases h; exact congrArg _ (eq_cmdWord_of_opField hop).symm
  next hop => exact encode_of_decodePlain hop rfl h
  next hop => exact encode_of_decodePlain hop rfl h
  next hop => exact encode_of_decodePlain hop rfl h
  next hop => exact encode_of_decodePlain hop rfl h
  next hop =>
    obtain ⟨ha, k, hb, rfl⟩ := decodeEncreg_instr h
    rw [eq_cmdWord_of_opField hop, ha, hb]
    rfl
  next hop => exact encode_of_decodePlain hop rfl h
  next hop => exact encode_of_decodePlain hop rfl h
  next => cases h

theorem encodingMatchesRow (i : Instr) : Laws.EncodingMatchesRow.Statement i := by
  cases i with
  | setdot x y => exact Laws.EncodingMatchesRow.setdot x y
  | clrdot x y => exact Laws.EncodingMatchesRow.clrdot x y
  | tgldot x y => exact Laws.EncodingMatchesRow.tgldot x y
  | allon => exact Laws.EncodingMatchesRow.allon
  | alloff => exact Laws.EncodingMatchesRow.alloff
  | invall => exact Laws.EncodingMatchesRow.invall
  | pack => exact Laws.EncodingMatchesRow.pack
  | encreg k => exact Laws.EncodingMatchesRow.encreg k
  | update => exact Laws.EncodingMatchesRow.update
  | init => exact Laws.EncodingMatchesRow.init
  | lrc last c => exact Laws.EncodingMatchesRow.lrc last c

theorem hits_of_decodeCmd {w : CmdWord} {i : Instr} (h : decodeCmd w = .instr i) : ∃ r ∈ opRows, r.hits w = true := by
  have row := encodingMatchesRow i
  rw [Laws.EncodingMatchesRow.Statement, encode_of_decodeCmd h] at row
  obtain ⟨r, hr, -, hits⟩ := row
  exact ⟨r, hr, hits⟩

theorem hits_iff (name : String) (mask pattern w : CmdWord) :
    OpRow.hits ⟨name, mask, pattern⟩ w = true ↔ w &&& mask = pattern := beq_iff_eq

/-- A row whose mask covers the word is hit by its pattern alone. -/
theorem eq_of_and_wordMask {w pattern : CmdWord} (h : w &&& 0xFFFFFFFFF = pattern) : w = pattern :=
  BitVec.and_allOnes.symm.trans h

/-- A row whose mask covers the opcode fixes it. -/
theorem opField_of_and_opMask {w pattern : CmdWord} (h : w &&& 0xF00000000 = pattern) :
    opField w = opField pattern := by
  rw [← h, opField, opField, BitVec.extractLsb'_and]
  exact BitVec.and_allOnes.symm

/-- ENCREG's row leaves bits 2 to 0 free and fixes all others. -/
theorem fields_of_and_encregMask {w : CmdWord} (h : w &&& 0xFFFFFFFF8 = 0x800000000) :
    opField w = 8 ∧ aField w = 0 ∧ (bField w).extractLsb' 3 13 = 0 := by
  have op := congrArg opField h
  have a := congrArg aField h
  have b := congrArg (fun v => (bField v).extractLsb' 3 13) h
  simp only [opField, aField, bField, BitVec.extractLsb'_and] at op a b ⊢
  exact ⟨BitVec.and_allOnes.symm.trans op, BitVec.and_allOnes.symm.trans a, BitVec.and_allOnes.symm.trans b⟩

theorem decodeCmd_of_hits {w : CmdWord} {r : OpRow} (hr : r ∈ opRows) (h : r.hits w = true) :
    ∃ i, decodeCmd w = .instr i := by
  simp only [opRows, List.mem_cons, List.not_mem_nil, or_false] at hr
  rcases hr with rfl | rfl | rfl | rfl | rfl | rfl | rfl | rfl | rfl | rfl <;> rw [hits_iff] at h
  · exact ⟨_, by rw [decodeCmd, opField_of_and_opMask h]; rfl⟩
  · exact ⟨_, by rw [decodeCmd, opField_of_and_opMask h]; rfl⟩
  · exact ⟨_, by rw [decodeCmd, opField_of_and_opMask h]; rfl⟩
  · obtain rfl := eq_of_and_wordMask h; exact ⟨.allon, by decide⟩
  · obtain rfl := eq_of_and_wordMask h; exact ⟨.alloff, by decide⟩
  · obtain rfl := eq_of_and_wordMask h; exact ⟨.invall, by decide⟩
  · obtain rfl := eq_of_and_wordMask h; exact ⟨.pack, by decide⟩
  · obtain ⟨op, a, b⟩ := fields_of_and_encregMask h
    exact ⟨_, by simp only [decodeCmd, op]; exact if_pos ⟨a, b⟩⟩
  · obtain rfl := eq_of_and_wordMask h; exact ⟨.update, by decide⟩
  · obtain rfl := eq_of_and_wordMask h; exact ⟨.init, by decide⟩

theorem noRow_iff_not_instr (w : CmdWord) :
    (∀ r ∈ opRows, r.hits w = false) ↔ ∀ i, decodeCmd w ≠ .instr i := by
  constructor
  · intro noRow i h
    obtain ⟨r, hr, hits⟩ := hits_of_decodeCmd h
    simp [noRow r hr] at hits
  · intro noInstr r hr
    by_contra hits
    obtain ⟨i, h⟩ := decodeCmd_of_hits hr (by simpa using hits)
    exact noInstr i h

end Sys2Proof

namespace Sys2Proof.Machine

open Sys2Proof

theorem step_of_accepts {s : State} {w : CmdWord} {ws : List CmdWord} (acc : s.Accepts w ws) :
    step s = runWord (.cmd w) (s.afterTake ws) := by
  obtain ⟨rst, noWait, valid, ready, offered⟩ := acc
  have idle := (cmdReady_iff s).mp ready
  simp [step, move, serve, transfer, rst, noWait, valid, ready, offered, emitEnabled, idle, cmdTransfer, State.afterTake]

theorem afterTake_unfaulted {s : State} {w : CmdWord} {ws : List CmdWord} (acc : s.Accepts w ws) :
    (s.afterTake ws).fault = .noFault := by
  obtain ⟨-, -, -, ready, -⟩ := acc
  exact ((cmdReady_iff s).mp ready).1

theorem runWord_noRow {w : CmdWord} (s : State) (noRow : ∀ r ∈ opRows, r.hits w = false) :
    runWord (.cmd w) s = .next (raiseFault .reservedCmd s) := by
  cases h : decodeCmd w with
  | instr i => exact absurd h ((noRow_iff_not_instr w).mp noRow i)
  | reserved why => simp [runWord, decode, h]

theorem runWord_of_reserved {w : CmdWord} (s : State)
    (reserved : (∀ r ∈ opRows, r.hits w = false) ∨ w = 0x800000006 ∨ w = 0x800000007) :
    runWord (.cmd w) s = .next (raiseFault .reservedCmd s) := by
  rcases reserved with noRow | rfl | rfl
  · exact runWord_noRow s noRow
  · rfl
  · rfl

/-- ENCREG 6 and 7 as words. -/
theorem encode_encreg_noRegister {k : BitVec 3} {w : CmdWord} (hk : 5 < k.toNat) (h : encode (.encreg k) = .cmd w) :
    w = 0x800000006 ∨ w = 0x800000007 := by
  have two : k = 6 ∨ k = 7 := by bv_omega
  cases h
  rcases two with rfl | rfl <;> decide

/-- What raises F_RESERVED_CMD is a word without a row, or ENCREG 6 or 7. -/
theorem reserved_of_runWord {w : CmdWord} {s t : State} (h : runWord (.cmd w) s = .next t)
    (before : s.fault = .noFault) (after : t.fault = .reservedCmd) :
    (∀ r ∈ opRows, r.hits w = false) ∨ w = 0x800000006 ∨ w = 0x800000007 := by
  cases dec : decodeCmd w with
  | reserved why => exact .inl ((noRow_iff_not_instr w).mpr (by simp [dec]))
  | instr i =>
    right
    have run : exec i s = .next t := by simpa [runWord, decode, dec] using h
    rcases exec_fault_cases run with same | ⟨k, rfl, hk, -⟩ | ⟨-, -, -, raised⟩ | ⟨-, -, raised⟩ | ⟨-, -, raised⟩
    · simp [same, before] at after
    · exact encode_encreg_noRegister hk (encode_of_decodeCmd dec)
    · simp [raised] at after
    · simp [raised] at after
    · simp [raised] at after

theorem runWord_answers (p : PortWord) (s : State) : ∃ t, runWord p s = .next t := by
  unfold runWord
  split
  · exact exec_answers _ s
  · exact ⟨_, rfl⟩

/-- Settles O7: the accepted word is run by `runWord`, which raises the code for the words named and for no other. -/
theorem reservedCommandFault : Obligations.ReservedCommandFault := by
  intro s w ws acc
  obtain ⟨t, run⟩ := runWord_answers (.cmd w) (s.afterTake ws)
  refine ⟨t, (step_of_accepts acc).trans run, fun reserved => ?_, reserved_of_runWord run (afterTake_unfaulted acc)⟩
  rw [runWord_of_reserved _ reserved] at run
  cases run
  exact ⟨rfl, rfl, rfl⟩

end Sys2Proof.Machine
end

section
/-! Decoding and encoding (30_encoding.md sections 2 and 3): they undo each other, the opcode rows are the decoder's
branches, and the reserved words are what no branch takes. -/

namespace Sys2Proof

theorem decodeEncreg_setWidth (k : BitVec 3) : decodeEncreg 0 (k.setWidth 16) = .instr (.encreg k) := by
  revert k; decide

/-- Settles O1: each command's branch is chosen by the opcode of its encoding and reads back its operand fields; a
beat's two parts are read back by the beat case of the row lemma. -/
theorem encodeThenDecodeGivesBack : Obligations.EncodeThenDecodeGivesBack := by
  intro i
  cases i with
  | setdot x y => simp [encode, decode, decodeCmd]
  | clrdot x y => simp [encode, decode, decodeCmd]
  | tgldot x y => simp [encode, decode, decodeCmd]
  | allon => decide
  | alloff => decide
  | invall => decide
  | pack => decide
  | encreg k => simpa [encode, decode, decodeCmd] using decodeEncreg_setWidth k
  | update => decide
  | init => decide
  | lrc last c => exact congrArg Decoded.instr (Laws.EncodingMatchesRow.lrc last c).symm

theorem encode_decodeBeat (b : Beat) : encode (decodeBeat b) = .beat b := by
  revert b; decide

theorem encode_of_decode {p : PortWord} {i : Instr} (h : decode p = .instr i) : encode i = p := by
  cases p with
  | cmd w => exact encode_of_decodeCmd h
  | beat b => cases h; exact encode_decodeBeat b

/-- Settles O2. -/
theorem decodeThenEncodeGivesBack : Obligations.DecodeThenEncodeGivesBack :=
  fun _ _ => encode_of_decode

theorem opField_and (v w : CmdWord) : opField (v &&& w) = opField v &&& opField w := BitVec.extractLsb'_and

/-- Every row's mask covers the opcode, so a row fixes it. -/
theorem opField_of_hits {w : CmdWord} {r : OpRow} (hr : r ∈ opRows) (h : r.hits w = true) :
    opField w = opField r.pattern := by
  have covers : ∀ r ∈ opRows, opField r.mask = BitVec.allOnes 4 := by decide
  rw [← beq_iff_eq.mp h, opField_and, covers r hr, BitVec.and_allOnes]

/-- No two rows have the same opcode, so no word matches two rows. -/
theorem row_unique {w : CmdWord} {r q : OpRow} (hr : r ∈ opRows) (hq : q ∈ opRows) (hitsR : r.hits w = true)
    (hitsQ : q.hits w = true) : q = r := by
  have distinct : ∀ r ∈ opRows, ∀ q ∈ opRows, opField q.pattern = opField r.pattern → q = r := by decide
  exact distinct r hr q hq ((opField_of_hits hq hitsQ).symm.trans (opField_of_hits hr hitsR))

theorem row_of_decodeCmd {w : CmdWord} {i : Instr} (h : decodeCmd w = .instr i) :
    ∃ r ∈ opRows, r.mnemonic = i.mnemonic ∧ r.hits w = true := by
  have row := encodingMatchesRow i
  rwa [Laws.EncodingMatchesRow.Statement, encode_of_decodeCmd h] at row

theorem row_eq_of_mnemonic : ∀ r ∈ opRows, ∀ q ∈ opRows, q.mnemonic = r.mnemonic → q = r := by decide

/-- Settles O3: what decodes has a row with its mnemonic, what matches a row decodes, and the rows are disjoint. -/
theorem decodeFollowsOpcodeRows : Obligations.DecodeFollowsOpcodeRows := by
  refine fun r hr w => ⟨⟨?_, fun hits => ?_⟩, fun hits q hq => row_unique hr hq hits⟩
  · rintro ⟨i, dec, name⟩
    obtain ⟨q, hq, nameQ, hits⟩ := row_of_decodeCmd dec
    rwa [row_eq_of_mnemonic r hr q hq (nameQ.trans name)] at hits
  · obtain ⟨i, dec⟩ := decodeCmd_of_hits hr hits
    obtain ⟨q, hq, name, hitsQ⟩ := row_of_decodeCmd dec
    exact ⟨i, dec, by rw [← name, row_unique hr hq hits hitsQ]⟩

/-- A decoder's answer is no instruction. -/
def Decoded.isReserved (d : Decoded) : Prop := ∃ why, d = .reserved why

@[simp] theorem isReserved_instr (i : Instr) : ¬(Decoded.instr i).isReserved := by simp [Decoded.isReserved]

@[simp] theorem isReserved_reserved (why : ReservedReason) : (Decoded.reserved why).isReserved := ⟨why, rfl⟩

@[simp] theorem isReserved_decodePlain (a b : BitVec 16) (i : Instr) :
    (decodePlain a b i).isReserved ↔ a ≠ 0 ∨ b ≠ 0 := by
  unfold decodePlain
  split <;> simp <;> tauto

@[simp] theorem isReserved_decodeEncreg (a b : BitVec 16) :
    (decodeEncreg a b).isReserved ↔ a ≠ 0 ∨ b.extractLsb' 3 13 ≠ 0 := by
  unfold decodeEncreg
  split <;> simp <;> tauto

/-- One branch of the decoder per opcode. -/
theorem isReserved_decodeCmd (w : CmdWord) : (decodeCmd w).isReserved ↔
    (opField w).toNat = 0 ∨ 0xB ≤ (opField w).toNat
    ∨ ((opField w).toNat ∈ [0x4, 0x5, 0x6, 0x7, 0x9, 0xA] ∧ (aField w ≠ 0 ∨ bField w ≠ 0))
    ∨ ((opField w).toNat = 0x8 ∧ (aField w ≠ 0 ∨ (bField w).extractLsb' 3 13 ≠ 0)) := by
  have lt : (opField w).toNat < 16 := (opField w).isLt
  unfold decodeCmd
  generalize (opField w).toNat = op at lt ⊢
  interval_cases op <;> simp

/-- Settles O4. -/
theorem reservedWordsAreThoseListed : Obligations.ReservedWordsAreThoseListed := isReserved_decodeCmd

/-- Settles O5: the decoder evaluated on the twelve words. -/
theorem specWordsDecode : Obligations.SpecWordsDecode := by
  unfold Obligations.SpecWordsDecode; decide

end Sys2Proof
end

section
/-! What one step does, read by effect: the effects of an accepted command word, of an accepted beat, and of a whole
step, with a named case each. -/

namespace Sys2Proof.Machine

open Sys2Proof

/-- The effects of an accepted command word (30_encoding.md R56, R64). -/
inductive CommandEffect (w : CmdWord) (s : State) : State → Prop
  | pixels (pb : PixelBuf) (i : Instr) (dec : decode (.cmd w) = .instr i)
      (name : i.mnemonic ∈ ["SETDOT", "CLRDOT", "TGLDOT", "ALLON", "ALLOFF", "INVALL"]) : CommandEffect w s (setPb pb s)
  | pack (dec : decode (.cmd w) = .instr .pack) : CommandEffect w s (runPack s)
  | update (dec : decode (.cmd w) = .instr .update) :
      CommandEffect w s (setSeq { kind := .upd, idx := 0, k := 0 } (runPack s))
  | init : CommandEffect w s (setSeq { kind := .ini, idx := 0, k := 0 } s)
  | encreg (k : BitVec 3) (register : k.toNat ≤ 5) (packed : s.pbsV = true) :
      CommandEffect w s (setSeq { kind := .one, idx := 0, k := k } s)
  | fault (f : FaultCode) : CommandEffect w s (raiseFault f s)

/-- The effects of an accepted LRC beat (42_lrc.md R86). -/
inductive BeatEffect (last : Bool) (s : State) : State → Prop
  | more (u : LrcUnit) (notLast : last = false) (part : u.partWay = true) : BeatEffect last s (setLrc u s)
  | result (u : LrcUnit) (res : BitVec 16) (isLast : last = true) (ended : u.partWay = false) :
      BeatEffect last s (answer { err := false, res := res } (setLrc u s))
  | malformed (u : LrcUnit) (isLast : last = true) (ended : u.partWay = false) :
      BeatEffect last s (raiseFault .lrcInput (answerError (setLrc u s)))

/-- The effects of a step: one agent moves, or none (70_reset_and_hazards.md R120, R131). -/
inductive StepEffect (s : State) : State → Prop
  | reset (rst : (pinsNow s).rst = true) : StepEffect s (resetCore (advance s))
  | confirmed (done : (pinsNow s).txDone = true) (wait : s.txWait = true) : StepEffect s (confirm (advance s))
  | handedOver (f : Text) (u : LrcUnit) (ready : (pinsNow s).txReady = true) (enabled : emitEnabled s = true)
      (frame : frameOf Config.device s.pbs s.seq = some f) (part : u.partWay = s.lrc.partWay) :
      StepEffect s (handOver f (setLrc u (advance s)))
  | command {t : State} (w : CmdWord) (ws : List CmdWord) (offered : s.cmds = w :: ws)
      (valid : (pinsNow s).cmdValid = true) (ready : cmdReady s = true) (effect : CommandEffect w (s.afterTake ws) t) :
      StepEffect s t
  | beat {t : State} (b : Beat) (bs : List Beat) (offered : s.beats = b :: bs) (valid : (pinsNow s).lrcValid = true)
      (ready : lrcReady s = true) (effect : BeatEffect (b.getLsbD 8) (s.afterTakeBeat bs) t) : StepEffect s t
  | waited : StepEffect s (advance s)

theorem step_of_accepts_instr {s : State} {w : CmdWord} {ws : List CmdWord} {i : Instr} (acc : s.Accepts w ws)
    (dec : decode (.cmd w) = .instr i) : step s = exec i (s.afterTake ws) := by
  rw [step_of_accepts acc, runWord, dec]

theorem decodeCmd_ne_lrc (w : CmdWord) (last : Bool) (c : Byte) : decode (.cmd w) ≠ .instr (.lrc last c) :=
  fun dec => by cases encode_of_decode dec

theorem commandEffect_of_exec {w : CmdWord} {i : Instr} {s t : State} (dec : decode (.cmd w) = .instr i)
    (h : exec i s = .next t) : CommandEffect w s t := by
  rcases exec_cases h with
    ⟨pb, rfl, ⟨x, y, rfl | rfl | rfl⟩ | rfl | rfl | rfl⟩ | ⟨rfl, rfl⟩ | ⟨rfl, rfl⟩ | ⟨rfl, rfl⟩
    | ⟨k, rfl, hk, packed, rfl⟩ | ⟨k, -, -, rfl⟩ | ⟨k, -, -, -, rfl⟩ | ⟨x, y, -, -, rfl⟩ | ⟨c, rfl, -⟩ | ⟨c, rfl, -⟩ | ⟨c, rfl, -⟩
  · exact .pixels pb _ dec (by simp [Instr.mnemonic])
  · exact .pixels pb _ dec (by simp [Instr.mnemonic])
  · exact .pixels pb _ dec (by simp [Instr.mnemonic])
  · exact .pixels pb _ dec (by decide)
  · exact .pixels pb _ dec (by decide)
  · exact .pixels pb _ dec (by decide)
  · exact .pack dec
  · exact .update dec
  · exact .init
  · exact .encreg k hk packed
  · exact .fault .reservedCmd
  · exact .fault .pbsInvalid
  · exact .fault .tglRange
  · exact absurd dec (decodeCmd_ne_lrc w _ _)
  · exact absurd dec (decodeCmd_ne_lrc w _ _)
  · exact absurd dec (decodeCmd_ne_lrc w _ _)

theorem commandEffect_of_runWord {w : CmdWord} {s t : State} (h : runWord (.cmd w) s = .next t) :
    CommandEffect w s t := by
  unfold runWord at h
  split at h
  next i dec => exact commandEffect_of_exec dec h
  next => cases h; exact .fault .reservedCmd

theorem beatEffect_of_exec {last : Bool} {c : Byte} {s t : State} (h : exec (.lrc last c) s = .next t) :
    BeatEffect last s t := by
  cases last with
  | false => cases h; exact .more _ rfl (by simp)
  | true =>
    cases bad : lrcMalformed (lrcFeed (lrcStart s.lrc) c) with
    | true => rw [exec_lrc_malformed bad] at h; cases h; exact .malformed _ rfl rfl
    | false => rw [exec_lrc_wellFormed bad] at h; cases h; exact .result _ _ rfl rfl

theorem stepEffect_of_step {s t : State} (h : step s = .next t) : StepEffect s t := by
  rcases step_cases h with
    ⟨rst, rfl⟩ | ⟨-, done, wait, rfl⟩ | ⟨-, -, ready, enabled, emitted⟩
    | ⟨-, -, -, ⟨w, ws, offered, valid, ready, run⟩ | ⟨b, bs, offered, valid, ready, -, run⟩ | ⟨-, rfl⟩⟩
  · exact .reset rst
  · exact .confirmed done wait
  · obtain ⟨f, u, frame, part, rfl⟩ := emit_cases emitted
    exact .handedOver f u ready enabled frame part
  · exact .command w ws offered valid ready (commandEffect_of_runWord run)
  · exact .beat b bs offered valid ready (beatEffect_of_exec run)
  · exact .waited

end Sys2Proof.Machine
end

section
/-! What the invariant says of a state in which something is accepted or outstanding. -/

namespace Sys2Proof.Machine

open Sys2Proof

variable {s : State}

theorem State.Inv.noWait_of_idle (inv : s.Inv) (idle : busy s = false) : s.txWait = false := by
  by_contra wait
  simp [inv.waitBusy (by simpa using wait)] at idle

/-- A word of either port is accepted only by an idle, unfaulted FDCORE. -/
theorem State.Inv.idle_of_lrcReady (inv : s.Inv) (ready : lrcReady s = true) :
    busy s = false ∧ s.fault = .noFault := by
  rcases (lrcReady_iff s).mp ready with part | cmd
  · exact inv.stringIdle part
  · obtain ⟨unfaulted, idle, -⟩ := (cmdReady_iff s).mp cmd
    exact ⟨idle, unfaulted⟩

theorem lrcReady_of_cmdReady (ready : cmdReady s = true) : lrcReady s = true := (lrcReady_iff s).mpr (.inr ready)

theorem State.Inv.accepts (inv : s.Inv) {w : CmdWord} {ws : List CmdWord} (running : (pinsNow s).rst = false)
    (offered : s.cmds = w :: ws) (valid : (pinsNow s).cmdValid = true) (ready : cmdReady s = true) : s.Accepts w ws :=
  ⟨running, inv.noWait_of_idle (inv.idle_of_lrcReady (lrcReady_of_cmdReady ready)).1, valid, ready, offered⟩

/-- While a sequence runs there is no fault and no string part-way in. -/
theorem State.Inv.unfaulted_of_busy (inv : s.Inv) (run : busy s = true) : s.fault = .noFault := by
  by_contra faulted
  simp [inv.faultIdle faulted] at run

theorem State.Inv.noString_of_busy (inv : s.Inv) (run : busy s = true) : s.lrc.partWay = false := by
  by_contra part
  simp [(inv.stringIdle (by simpa using part)).1] at run

theorem State.Inv.not_lrcReady_of_busy (inv : s.Inv) (run : busy s = true) : lrcReady s ≠ true := fun ready => by
  simp [(inv.idle_of_lrcReady ready).1] at run

theorem busy_iff (s : State) : busy s = true ↔ s.seq.kind ≠ .idle := by simp [busy]

end Sys2Proof.Machine
end

section
/-! The sequencer (10_state.md R14): its legal positions name a frame, and `done` goes from one to the next. -/

namespace Sys2Proof.Machine

open Sys2Proof

theorem seqLen_le (kind : SeqKind) : seqLen kind ≤ 12 := by cases kind <;> decide

theorem Seq.inv_iff (q : Seq) :
    q.inv = true ↔ q = Seq.atRest
      ∨ q.kind ≠ .idle ∧ q.idx.toNat < seqLen q.kind ∧ (if q.kind = .one then q.k.toNat ≤ 5 else q.k = 0) := by
  obtain ⟨kind, idx, k⟩ := q
  cases kind <;> simp [Seq.inv, Seq.atRest]

theorem Seq.lt_of_inv {q : Seq} (ok : q.inv = true) (run : q.kind ≠ .idle) : q.idx.toNat < seqLen q.kind := by
  rcases q.inv_iff.mp ok with rfl | ⟨-, lt, -⟩
  · exact absurd rfl run
  · exact lt

theorem Seq.register_of_inv {q : Seq} (ok : q.inv = true) (one : q.kind = .one) : q.k.toNat ≤ 5 := by
  rcases q.inv_iff.mp ok with rfl | ⟨-, -, register⟩
  · cases one
  · simpa [one] using register

/-- The next index is one more: SEQ.idx does not wrap. -/
theorem toNat_idx_succ {q : Seq} (more : q.idx.toNat + 1 < seqLen q.kind) : (q.idx + 1).toNat = q.idx.toNat + 1 := by
  have le := seqLen_le q.kind
  have lt : q.idx.toNat + 1 < 2 ^ 4 := by omega
  simpa using BitVec.toNat_add_of_lt (y := 1#4) lt

theorem seqAfterDone_of_lt {q : Seq} (more : q.idx.toNat + 1 < seqLen q.kind) :
    seqAfterDone q = { q with idx := q.idx + 1 } := if_pos more

theorem seqAfterDone_of_last {q : Seq} (last : ¬q.idx.toNat + 1 < seqLen q.kind) : seqAfterDone q = Seq.atRest :=
  if_neg last

theorem seqAfterDone_inv {q : Seq} (ok : q.inv = true) : (seqAfterDone q).inv = true := by
  by_cases more : q.idx.toNat + 1 < seqLen q.kind
  · rcases q.inv_iff.mp ok with rfl | ⟨run, -, register⟩
    · simp [Seq.atRest, seqLen] at more
    · rw [seqAfterDone_of_lt more, Seq.inv_iff]
      exact .inr ⟨run, (toNat_idx_succ more).trans_lt more, register⟩
  · rw [seqAfterDone_of_last more]; rfl

theorem seqAfterDone_kind {q : Seq} (run : (seqAfterDone q).kind ≠ .idle) : (seqAfterDone q).kind = q.kind := by
  by_cases more : q.idx.toNat + 1 < seqLen q.kind
  · rw [seqAfterDone_of_lt more]
  · rw [seqAfterDone_of_last more] at run; exact absurd rfl run

/-- A legal position names a row of FRAMEOF's table. -/
theorem frameSource_of_inv {q : Seq} (ok : q.inv = true) (run : q.kind ≠ .idle) : ∃ src, frameSource q = some src := by
  have rows := congrArg (fun rows => rows[q.idx.toNat]?) (map_frameSource_range q.kind q.k)
  simp only [List.getElem?_map, List.getElem?_range (Seq.lt_of_inv ok run), Option.map_some, BitVec.ofNat_toNat,
    BitVec.setWidth_eq] at rows
  obtain ⟨src, -, named⟩ := Option.map_eq_some_iff.mp rows.symm
  exact ⟨src, named.symm⟩

/-- A register frame is one of the six, and belongs to a sequence that needs the packed stream. -/
theorem register_of_frameSource {q : Seq} {k : Nat} (ok : q.inv = true) (named : frameSource q = some (.register k)) :
    k < 6 ∧ (q.kind = .upd ∨ q.kind = .one) := by
  rcases frameSource_cases q named with ⟨f, src, -⟩ | ⟨j, src, ⟨upd, lt⟩ | ⟨one, rfl⟩⟩
  · cases src
  · cases src; exact ⟨lt, .inl upd⟩
  · cases src; exact ⟨Nat.lt_succ_of_le (Seq.register_of_inv ok one), .inr one⟩

end Sys2Proof.Machine
end

section
/-! Every frame fits the frame buffer (10_state.md R17): FRAMEOF answers literal frames and register frames, and FB_CAP
is the largest of their lengths. -/

namespace Sys2Proof.Machine

open Sys2Proof

theorem frameOf_cases {cfg : Config} {pbs : Packed} {q : Seq} {f : Text} (h : frameOf cfg pbs q = some f) :
    f ∈ litStart :: litEnd ++ litInit ∨ ∃ k r, regTable[k]? = some r ∧ regFrame cfg pbs k = some f := by
  rw [frameOf_eq_bind] at h
  obtain ⟨src, named, text⟩ := Option.bind_eq_some_iff.mp h
  rcases frameSource_cases q named with ⟨g, rfl, mem⟩ | ⟨k, rfl, -⟩
  · cases text; exact .inl mem
  · have lt : k < 6 := by
      by_contra ge
      simp [sourceFrame, regFrame_none cfg pbs (Nat.le_of_not_lt ge)] at text
    obtain ⟨r, row⟩ := regTable_some lt
    exact .inr ⟨k, r, row, text⟩

theorem le_fbCap {cfg : Config} {n : Nat} (mem : n ∈ frameLengths cfg) : n ≤ fbCap cfg := by
  rw [fbCap, List.foldl_eq_foldr]
  exact List.le_max_of_le' 0 mem le_rfl

theorem length_mem_frameLengths {cfg : Config} {pbs : Packed} {q : Seq} {f : Text} (h : frameOf cfg pbs q = some f) :
    f.length ∈ frameLengths cfg := by
  rcases frameOf_cases h with literal | ⟨k, r, row, text⟩
  · exact List.mem_append_left _ (List.mem_map_of_mem literal)
  · refine List.mem_append_right _ (List.mem_map.mpr ⟨k, List.mem_range.mpr (regTable_lt row), ?_⟩)
    rw [row, length_regFrame cfg pbs row text]

theorem length_le_fbCap {cfg : Config} {pbs : Packed} {q : Seq} {f : Text} (h : frameOf cfg pbs q = some f) :
    f.length ≤ fbCap cfg := le_fbCap (length_mem_frameLengths h)

theorem length_writeFb (f fb : Text) : (writeFb f fb).length = max f.length fb.length := by
  simp [writeFb]; omega

end Sys2Proof.Machine
end

section
/-! Every update keeps the invariant where a step makes it, and so does every step. -/

namespace Sys2Proof.Machine

open Sys2Proof

theorem State.Inv.advance {s : State} (inv : s.Inv) : (advance s).Inv := { inv with }

theorem State.Inv.afterTake {s : State} (inv : s.Inv) (ws : List CmdWord) : (s.afterTake ws).Inv := { inv with }

theorem State.Inv.afterTakeBeat {s : State} (inv : s.Inv) (bs : List Beat) : (s.afterTakeBeat bs).Inv := { inv with }

theorem State.Inv.setPb {s : State} (inv : s.Inv) (pb : PixelBuf) : (setPb pb s).Inv := { inv with }

theorem State.Inv.runPack {s : State} (inv : s.Inv) : (runPack s).Inv := { inv with packed := fun _ => rfl }

theorem State.Inv.answer {s : State} (inv : s.Inv) (a : LrcAnswer) : (answer a s).Inv := { inv with }

theorem State.Inv.answerError {s : State} (inv : s.Inv) : (answerError s).Inv := { inv with }

theorem State.Inv.setLrc {s : State} (inv : s.Inv) {u : LrcUnit}
    (idle : u.partWay = true → busy s = false ∧ s.fault = .noFault) : (setLrc u s).Inv :=
  { inv with stringIdle := idle }

theorem State.Inv.raiseFault {s : State} (inv : s.Inv) (f : FaultCode) (idle : busy s = false)
    (noString : s.lrc.partWay = false) : (raiseFault f s).Inv :=
  { inv with
    faultIdle := fun _ => idle
    stringIdle := fun part => by simp [noString] at part }

/-- A sequence starts in a state that is ready for a command. -/
theorem State.Inv.setSeq {s : State} (inv : s.Inv) {q : Seq} (ready : cmdReady s = true) (legal : q.inv = true)
    (packed : q.kind = .upd ∨ q.kind = .one → s.pbsV = true) : (setSeq q s).Inv := by
  obtain ⟨unfaulted, idle, noString⟩ := (cmdReady_iff s).mp ready
  have noWait := inv.noWait_of_idle idle
  exact { inv with
    seqOk := legal
    waitBusy := fun wait => by simp [noWait] at wait
    faultIdle := fun faulted => absurd unfaulted faulted
    stringIdle := fun part => by simp [noString] at part
    packed := packed }

theorem State.Inv.confirm {s : State} (inv : s.Inv) (wait : s.txWait = true) : (confirm s).Inv := by
  have run := inv.waitBusy wait
  have packed : (seqAfterDone s.seq).kind = .upd ∨ (seqAfterDone s.seq).kind = .one → s.pbsV = true := fun kind => by
    rw [seqAfterDone_kind (by rcases kind with kind | kind <;> simp [kind])] at kind
    exact inv.packed kind
  exact { inv with
    seqOk := seqAfterDone_inv inv.seqOk
    waitBusy := fun wait => by cases wait
    faultIdle := fun faulted => absurd (inv.unfaulted_of_busy run) faulted
    stringIdle := fun part => by simp [inv.noString_of_busy run] at part
    packed := packed
    held := fun wait => by cases wait }

theorem State.Inv.handOver {s : State} (inv : s.Inv) {f : Text} (run : busy s = true)
    (frame : frameOf Config.device s.pbs s.seq = some f) : (handOver f s).Inv where
  seqOk := inv.seqOk
  waitBusy _ := run
  faultIdle := inv.faultIdle
  stringIdle := inv.stringIdle
  packed := inv.packed
  held _ := by simp
  fits := by
    have cap := length_le_fbCap frame
    have fits := inv.fits.2
    simp [length_writeFb, cap, fits]

theorem reset_inv : State.reset.Inv where
  seqOk := by decide
  waitBusy wait := by cases wait
  faultIdle faulted := absurd rfl faulted
  stringIdle part := by cases part
  packed kind := by rcases kind with kind | kind <;> cases kind
  held wait := by cases wait
  fits := ⟨Nat.le_refl _, Nat.zero_le _⟩

/-- The invariant reads nothing of what a reset leaves outside FDCORE. -/
theorem resetCore_inv (s : State) : (resetCore s).Inv :=
  { reset_inv with held := fun wait => by cases wait }

theorem CommandEffect.inv {w : CmdWord} {s t : State} (inv : s.Inv) (ready : cmdReady s = true)
    (effect : CommandEffect w s t) : t.Inv := by
  obtain ⟨-, idle, noString⟩ := (cmdReady_iff s).mp ready
  cases effect with
  | pixels pb i dec name => exact inv.setPb pb
  | pack dec => exact inv.runPack
  | update dec => exact inv.runPack.setSeq ready (by decide) fun _ => rfl
  | init => exact inv.setSeq ready (by decide) (by simp)
  | encreg k register packed =>
    exact inv.setSeq ready (by simpa [Seq.inv, seqLen] using register) fun _ => packed
  | fault f => exact inv.raiseFault f idle noString

theorem BeatEffect.inv {last : Bool} {s t : State} (inv : s.Inv) (ready : lrcReady s = true)
    (effect : BeatEffect last s t) : t.Inv := by
  have idle := inv.idle_of_lrcReady ready
  cases effect with
  | more u notLast part => exact inv.setLrc fun _ => idle
  | result u res isLast ended => exact (inv.setLrc fun _ => idle).answer _
  | malformed u isLast ended => exact (inv.setLrc fun _ => idle).answerError.raiseFault _ idle.1 ended

theorem StepEffect.inv {s t : State} (inv : s.Inv) (effect : StepEffect s t) : t.Inv := by
  cases effect with
  | reset rst => exact resetCore_inv _
  | confirmed done wait => exact inv.advance.confirm wait
  | handedOver f u ready enabled frame part =>
    have run := ((emitEnabled_iff s).mp enabled).1
    exact (inv.advance.setLrc fun h => inv.stringIdle (part ▸ h)).handOver run frame
  | command w ws offered valid ready effect => exact effect.inv (inv.afterTake ws) ready
  | beat b bs offered valid ready effect => exact effect.inv (inv.afterTakeBeat bs) ready
  | waited => exact inv.advance

/-- Where a sequence runs under the invariant, its frame can be formed. -/
theorem frame_of_inv {s : State} (inv : s.Inv) (run : busy s = true) :
    (∃ f, frameSource s.seq = some (.literal f))
    ∨ ∃ k body f, frameSource s.seq = some (.register k) ∧ s.pbsV = true
        ∧ regBody Config.device s.pbs k = some body ∧ regFrame Config.device s.pbs k = some f := by
  obtain ⟨src, named⟩ := frameSource_of_inv inv.seqOk ((busy_iff s).mp run)
  cases src with
  | literal f => exact .inl ⟨f, named⟩
  | register k =>
    obtain ⟨lt, kind⟩ := register_of_frameSource inv.seqOk named
    obtain ⟨r, row⟩ := regTable_some lt
    exact .inr ⟨k, _, _, named, inv.packed kind, regBody_eq _ _ row, regFrame_eq _ _ row⟩

theorem emit_literal {s : State} {f : Text} (named : frameSource s.seq = some (.literal f)) :
    emit s = .next (handOver f s) := by
  rw [emit, named]

theorem emit_register {s : State} {k : Nat} {body f : Text} (named : frameSource s.seq = some (.register k))
    (packed : s.pbsV = true) (hasBody : regBody Config.device s.pbs k = some body)
    (frame : regFrame Config.device s.pbs k = some f) :
    emit s = .next (handOver f (setLrc (lrcScratch body s.lrc) s)) := by
  simp [emit, named, packed, hasBody, frame]

theorem emit_answers {s : State} (inv : s.Inv) (run : busy s = true) : ∃ t, emit s = .next t := by
  rcases frame_of_inv inv run with ⟨f, named⟩ | ⟨k, body, f, named, packed, hasBody, frame⟩
  · exact ⟨_, emit_literal named⟩
  · exact ⟨_, emit_register named packed hasBody frame⟩

theorem serve_answers (p : Pins) (s : State) : ∃ t, serve p s = .next t := by
  unfold serve
  split
  · exact runWord_answers _ _
  · exact ⟨_, rfl⟩

theorem step_answers {s : State} (inv : s.Inv) : ∃ t, step s = .next t := by
  unfold step move
  split_ifs with rst done ready
  · exact ⟨_, rfl⟩
  · exact ⟨_, rfl⟩
  · simp only [Bool.and_eq_true] at ready
    exact emit_answers inv.advance ((emitEnabled_iff s).mp ready.2).1
  · exact serve_answers _ _

/-- Settles O54: each effect of a step keeps the invariant, and the invariant lets `emit` form its frame. -/
theorem stepKeepsInvariantAndNeverStops : Obligations.StepKeepsInvariantAndNeverStops := fun s inv => by
  obtain ⟨t, h⟩ := step_answers inv
  exact ⟨t, h, (stepEffect_of_step h).inv inv⟩

/-- Settles O53. -/
theorem resetStateMeetsInvariant : Obligations.ResetStateMeetsInvariant := reset_inv

end Sys2Proof.Machine
end

section
/-! A running sequence hands over its frames in order (43_frame_encoder.md section 5). -/

namespace Sys2Proof.Machine

open Sys2Proof

theorem length_sequenceFrames (cfg : Config) (pbs : Packed) (kind : SeqKind) (k : BitVec 3) :
    (sequenceFrames cfg pbs kind k).length = seqLen kind := by simp [sequenceFrames]

theorem getElem?_sequenceFrames (cfg : Config) (pbs : Packed) {q : Seq} (lt : q.idx.toNat < seqLen q.kind) :
    (sequenceFrames cfg pbs q.kind q.k)[q.idx.toNat]? = some (frameOf cfg pbs q) := by
  simp [sequenceFrames, lt]

/-- The frames of a sequence up to and with the one SEQ names. -/
theorem take_succ_sequenceFrames (cfg : Config) (pbs : Packed) {q : Seq} (lt : q.idx.toNat < seqLen q.kind) :
    (sequenceFrames cfg pbs q.kind q.k).take (q.idx.toNat + 1)
      = (sequenceFrames cfg pbs q.kind q.k).take q.idx.toNat ++ [frameOf cfg pbs q] := by
  rw [List.take_add_one, getElem?_sequenceFrames cfg pbs lt, Option.toList_some]

theorem framesSent_of_wait {s : State} (wait : s.txWait = true) : framesSent s = s.seq.idx.toNat + 1 := by
  simp [framesSent, wait]

theorem framesSent_of_noWait {s : State} (noWait : s.txWait = false) : framesSent s = s.seq.idx.toNat := by
  simp [framesSent, noWait]

/-- A hand-over adds the next frame. -/
theorem Sending.handOver {base : List Text} {s t : State} {f : Text} (sending : Sending base s)
    (noWait : s.txWait = false) (lt : s.seq.idx.toNat < seqLen s.seq.kind)
    (frame : frameOf Config.device s.pbs s.seq = some f) (log : t.txLog = s.txLog ++ [f]) (wait : t.txWait = true)
    (seq : t.seq = s.seq) (pbs : t.pbs = s.pbs) : Sending base t := by
  unfold Sending at sending ⊢
  rw [framesSent_of_noWait noWait] at sending
  rw [framesSent_of_wait wait, seq, pbs, take_succ_sequenceFrames _ _ lt, frame, ← List.append_assoc, ← sending, log,
    List.map_append]
  rfl

/-- A confirmation before the last frame leaves the frames handed over what they are. -/
theorem Sending.confirm {base : List Text} {s : State} (sending : Sending base s) (wait : s.txWait = true)
    (more : s.seq.idx.toNat + 1 < seqLen s.seq.kind) : Sending base (confirm s) := by
  unfold Sending at sending ⊢
  rw [framesSent_of_wait wait] at sending
  rw [framesSent_of_noWait rfl, confirm_seq, seqAfterDone_of_lt more, toNat_idx_succ more]
  exact sending

/-- After the last frame all have been handed over. -/
theorem Sending.all_of_last {base : List Text} {s : State} (sending : Sending base s) (wait : s.txWait = true)
    (last : ¬s.seq.idx.toNat + 1 < seqLen s.seq.kind) :
    s.txLog.map some = base.map some ++ sequenceFrames Config.device s.pbs s.seq.kind s.seq.k := by
  unfold Sending at sending
  rw [sending, framesSent_of_wait wait, List.take_of_length_le]
  rw [length_sequenceFrames]
  omega

/-- A sequence that has just started has handed over none. -/
theorem sending_start {s : State} (noWait : s.txWait = false) (first : s.seq.idx = 0) : Sending s.txLog s := by
  simp [Sending, framesSent_of_noWait noWait, first]

theorem Seq.lt_of_busy {s : State} (inv : s.Inv) (run : busy s = true) : s.seq.idx.toNat < seqLen s.seq.kind :=
  Seq.lt_of_inv inv.seqOk ((busy_iff s).mp run)

/-- A confirmed frame is the last one exactly when the sequence ends. -/
theorem busy_confirm {s : State} (run : busy s = true) :
    busy (confirm s) = true ↔ s.seq.idx.toNat + 1 < seqLen s.seq.kind := by
  by_cases more : s.seq.idx.toNat + 1 < seqLen s.seq.kind
  · simp [busy_iff, seqAfterDone_of_lt more, more, (busy_iff s).mp run]
  · simp [busy_iff, seqAfterDone_of_last more, more, Seq.atRest]

theorem Sending.step {base : List Text} {s t : State} (inv : s.Inv) (run : busy s = true) (sending : Sending base s)
    (running : (pinsNow s).rst = false) (effect : StepEffect s t) :
    (busy t = true → Sending base t)
    ∧ (busy t = false →
        t.txLog.map some = base.map some ++ sequenceFrames Config.device s.pbs s.seq.kind s.seq.k) := by
  cases effect with
  | reset rst => simp [running] at rst
  | confirmed done wait =>
    refine ⟨fun more => ?_, fun ended => sending.all_of_last wait fun more => ?_⟩
    · exact Sending.confirm (s := advance s) sending wait ((busy_confirm (s := advance s) run).mp more)
    · simp [(busy_confirm (s := advance s) run).mpr more] at ended
  | handedOver f u ready enabled frame part =>
    obtain ⟨-, noWait, -⟩ := (emitEnabled_iff s).mp enabled
    refine ⟨fun _ => sending.handOver noWait (Seq.lt_of_busy inv run) frame rfl rfl rfl rfl, fun ended => ?_⟩
    exact absurd (run.symm.trans ended) (by decide)
  | command w ws offered valid ready effect => exact absurd (lrcReady_of_cmdReady ready) (inv.not_lrcReady_of_busy run)
  | beat b bs offered valid ready effect => exact absurd ready (inv.not_lrcReady_of_busy run)
  | waited => exact ⟨fun _ => sending, fun ended => absurd (run.symm.trans ended) (by decide)⟩

theorem CommandEffect.starts {w : CmdWord} {s t : State} (effect : CommandEffect w s t) (idle : busy s = false)
    (run : busy t = true) : t.seq.idx = 0 ∧ t.txLog = s.txLog ∧ t.txWait = s.txWait := by
  cases effect with
  | pixels pb i dec name => exact absurd (run.symm.trans idle) (by decide)
  | pack dec => exact absurd (run.symm.trans idle) (by decide)
  | update dec => exact ⟨rfl, rfl, rfl⟩
  | init => exact ⟨rfl, rfl, rfl⟩
  | encreg k register packed => exact ⟨rfl, rfl, rfl⟩
  | fault f => exact absurd (run.symm.trans idle) (by decide)

theorem BeatEffect.seq_eq {last : Bool} {s t : State} (effect : BeatEffect last s t) : t.seq = s.seq := by
  cases effect <;> rfl

/-- Only a command starts a sequence. -/
theorem sending_of_started {s t : State} (inv : s.Inv) (idle : busy s = false) (run : busy t = true)
    (effect : StepEffect s t) : Sending s.txLog t := by
  have noWait := inv.noWait_of_idle idle
  cases effect with
  | reset rst => cases run
  | confirmed done wait => exact absurd (noWait.symm.trans wait) (by decide)
  | handedOver f u ready enabled frame part => exact absurd (run.symm.trans idle) (by decide)
  | command w ws offered valid ready effect =>
    obtain ⟨first, log, wait⟩ := effect.starts idle run
    have logged : t.txLog = s.txLog := log
    exact logged ▸ sending_start (wait.trans noWait) first
  | beat b bs offered valid ready effect =>
    rw [busy_iff, effect.seq_eq] at run
    exact absurd ((busy_eq_false_iff s).mp idle) run
  | waited => exact absurd (run.symm.trans idle) (by decide)

/-- Settles O44: `Sending` is kept by every step of the sequence, ends with all frames, and holds at the start. -/
theorem sequenceSendsItsFramesInOrder : Obligations.SequenceSendsItsFramesInOrder :=
  ⟨fun _ _ _ inv run sending running h => sending.step inv run running (stepEffect_of_step h),
    fun _ _ inv idle _ h run => sending_of_started inv idle run (stepEffect_of_step h)⟩

end Sys2Proof.Machine
end

section
/-! The steps of a sequence, one by one: `emit`, `done`, and the waits between them (43_frame_encoder.md section 4,
20_memory.md section 10). -/

namespace Sys2Proof.Machine

open Sys2Proof

theorem step_eq_emit {s : State} (running : (pinsNow s).rst = false) (ready : (pinsNow s).txReady = true)
    (enabled : emitEnabled s = true) : step s = emit (advance s) := by
  obtain ⟨-, noWait, -⟩ := (emitEnabled_iff s).mp enabled
  simp [step, move, running, noWait, ready, enabled]

theorem step_eq_confirm {s : State} (running : (pinsNow s).rst = false) (done : (pinsNow s).txDone = true)
    (wait : s.txWait = true) : step s = .next (confirm (advance s)) := by
  simp [step, move, running, done, wait]

theorem step_emit {s : State} (inv : s.Inv) (running : (pinsNow s).rst = false) (ready : (pinsNow s).txReady = true)
    (enabled : emitEnabled s = true) :
    ∃ f u, step s = .next (handOver f (setLrc u (advance s))) ∧ frameOf Config.device s.pbs s.seq = some f
      ∧ u.partWay = s.lrc.partWay := by
  obtain ⟨t, emitted⟩ := emit_answers inv.advance ((emitEnabled_iff s).mp enabled).1
  obtain ⟨f, u, frame, part, rfl⟩ := emit_cases emitted
  exact ⟨f, u, (step_eq_emit running ready enabled).trans emitted, frame, part⟩

theorem frameOf_ne_nil {cfg : Config} {pbs : Packed} {q : Seq} {f : Text} (h : frameOf cfg pbs q = some f) :
    f ≠ [] := by
  rcases frameOf_cases h with literal | ⟨k, r, row, text⟩
  · have nonempty : ∀ g ∈ litStart :: litEnd ++ litInit, g ≠ [] := by decide
    exact nonempty f literal
  · rw [regFrame_eq cfg pbs row] at text
    cases text
    simp

theorem take_writeFb (f fb : Text) : (writeFb f fb).take f.length = f := by simp [writeFb]

/-- Settles O40: the frame handed over is `frameOf` of SEQ, and the updates of the step name what changes. -/
theorem emitHandsOverTheFrame : Obligations.EmitHandsOverTheFrame := by
  intro s inv running ready enabled
  obtain ⟨f, u, emitted, frame, part⟩ := step_emit inv running ready enabled
  exact ⟨_, f, emitted, frame, rfl, rfl, rfl, rfl, take_writeFb f _, part, txBeats_chars f,
    txBeats_last f (frameOf_ne_nil frame), rfl⟩

/-- Without a frame outstanding the pulse is not read. -/
theorem move_txDone_of_noWait (p : Pins) {s : State} (noWait : s.txWait = false) :
    move { p with txDone := false } s = move p s := by
  simp [move, noWait]
  rfl

/-- Settles O41: `done` is `confirm`, whose frame is the held one and so, by the invariant, the last of TXLOG. -/
theorem doneAdvancesTheSequence : Obligations.DoneAdvancesTheSequence := by
  refine ⟨fun s inv running done wait => ?_, fun s p ps pins noWait => ?_⟩
  · obtain ⟨isHeld, logged⟩ := inv.held wait
    obtain ⟨f, held⟩ := Option.isSome_iff_exists.mp isHeld
    exact ⟨_, f, step_eq_confirm running done wait, rfl, logged.symm.trans held, rfl, by simp [sendHeld, held], rfl⟩
  · have sameMove := move_txDone_of_noWait p (s := advance s) noWait
    simpa [step, pinsNow, advance, pins] using sameMove.symm

/-- A frame outstanding and not confirmed leaves the step to time alone. -/
theorem StepEffect.eq_advance_of_wait {s t : State} (inv : s.Inv) (running : (pinsNow s).rst = false)
    (wait : s.txWait = true) (notDone : (pinsNow s).txDone = false) (effect : StepEffect s t) : t = advance s := by
  have run := inv.waitBusy wait
  cases effect with
  | reset rst => simp [running] at rst
  | confirmed done wait => simp [notDone] at done
  | handedOver f u ready enabled frame part => simp [emitEnabled, wait] at enabled
  | command w ws offered valid ready effect => exact absurd (lrcReady_of_cmdReady ready) (inv.not_lrcReady_of_busy run)
  | beat b bs offered valid ready effect => exact absurd ready (inv.not_lrcReady_of_busy run)
  | waited => rfl

/-- Time alone changes nothing of FDCORE and nothing that is offered. -/
theorem sameCore_advance (s : State) : State.sameCore s (advance s) := rfl

/-- Settles O42. -/
theorem noConfirmationNoProgress : Obligations.NoConfirmationNoProgress := by
  intro s t inv wait running notDone h
  obtain rfl := (stepEffect_of_step h).eq_advance_of_wait inv running wait notDone
  exact ⟨sameCore_advance s, rfl, rfl⟩

/-- An idle FDCORE to which no port offers a word waits. -/
theorem StepEffect.eq_advance_of_noOffer {s t : State} (running : (pinsNow s).rst = false) (noWait : s.txWait = false)
    (idle : busy s = false) (noCmd : (pinsNow s).cmdValid = false ∨ s.cmds = [])
    (noBeat : (pinsNow s).lrcValid = false ∨ s.beats = []) (effect : StepEffect s t) : t = advance s := by
  cases effect with
  | reset rst => simp [running] at rst
  | confirmed done wait => simp [noWait] at wait
  | handedOver f u ready enabled frame part => simp [emitEnabled, idle] at enabled
  | command w ws offered valid ready effect => simp [offered, valid] at noCmd
  | beat b bs offered valid ready effect => simp [offered, valid] at noBeat
  | waited => rfl

/-- A running sequence whose frame the Transmitter does not take waits. -/
theorem StepEffect.eq_advance_of_notReady {s t : State} (inv : s.Inv) (running : (pinsNow s).rst = false)
    (noWait : s.txWait = false) (run : busy s = true) (notReady : (pinsNow s).txReady = false)
    (effect : StepEffect s t) : t = advance s := by
  cases effect with
  | reset rst => simp [running] at rst
  | confirmed done wait => simp [noWait] at wait
  | handedOver f u ready enabled frame part => simp [notReady] at ready
  | command w ws offered valid ready effect => exact absurd (lrcReady_of_cmdReady ready) (inv.not_lrcReady_of_busy run)
  | beat b bs offered valid ready effect => exact absurd ready (inv.not_lrcReady_of_busy run)
  | waited => rfl

/-- Settles O56: in both cases the step's one possible effect is `waited`. -/
theorem waitingChangesNothing : Obligations.WaitingChangesNothing := by
  intro s inv running noWait
  obtain ⟨t, h⟩ := step_answers inv
  have effect := stepEffect_of_step h
  refine ⟨fun idle noCmd noBeat => ⟨t, h, ?_⟩, fun run notReady => ⟨t, h, ?_⟩⟩
  · obtain rfl := effect.eq_advance_of_noOffer running noWait ((busy_eq_false_iff s).mpr idle) noCmd noBeat
    exact ⟨sameCore_advance s, rfl, rfl⟩
  · obtain rfl := effect.eq_advance_of_notReady inv running noWait ((busy_iff s).mpr run) notReady
    exact ⟨sameCore_advance s, rfl, rfl⟩

theorem CommandEffect.txLog_eq {w : CmdWord} {s t : State} (effect : CommandEffect w s t) : t.txLog = s.txLog := by
  cases effect <;> rfl

theorem BeatEffect.txLog_eq {last : Bool} {s t : State} (effect : BeatEffect last s t) : t.txLog = s.txLog := by
  cases effect <;> rfl

/-- Settles O45: of a step's effects only a hand-over writes TXLOG, and `emit` is enabled only when none is
outstanding. -/
theorem atMostOneFrameOutstanding : Obligations.AtMostOneFrameOutstanding := by
  intro s t h running changed
  cases stepEffect_of_step h with
  | reset rst => simp [running] at rst
  | confirmed done wait => exact absurd rfl changed
  | handedOver f u ready enabled frame part => exact ⟨⟨f, rfl⟩, ((emitEnabled_iff s).mp enabled).2.1, rfl⟩
  | command w ws offered valid ready effect => exact absurd effect.txLog_eq changed
  | beat b bs offered valid ready effect => exact absurd effect.txLog_eq changed
  | waited => exact absurd rfl changed

end Sys2Proof.Machine
end

section
/-! A whole sequence, round by round: the Transmitter takes each frame and confirms it. -/

namespace Sys2Proof.Machine

open Sys2Proof

theorem run_succ {s u : State} (h : step s = .next u) (n : Nat) :
    Host.Core.run core (n + 1) s = Host.Core.run core n u := by
  simp [Host.Core.run, core, h]

/-- The pins of a round: a step in which the Transmitter takes a frame, a step in which it confirms one. -/
def IsRound (q : Pins × Pins) : Prop :=
  q.1.rst = false ∧ q.1.txReady = true ∧ q.2.rst = false ∧ q.2.txDone = true

/-- The state after a round in which this frame was handed over and confirmed. -/
def afterRound (f : Text) (u : LrcUnit) (s : State) : State := confirm (advance (handOver f (setLrc u (advance s))))

@[simp] theorem afterRound_pbs (f : Text) (u : LrcUnit) (s : State) : (afterRound f u s).pbs = s.pbs := rfl

/-- What a run of rounds to the end of the sequence leaves, from the state s. -/
structure SentAll (base : List Text) (later : List Pins) (s t : State) : Prop where
  log : t.txLog.map some = base.map some ++ sequenceFrames Config.device s.pbs s.seq.kind s.seq.k
  seq : t.seq = Seq.atRest
  noWait : t.txWait = false
  fault : t.fault = s.fault
  pb : t.pb = s.pb
  pbs : t.pbs = s.pbs
  pbsV : t.pbsV = s.pbsV
  cmds : t.cmds = s.cmds
  pins : t.pins = later

/-- One round hands over and confirms the frame SEQ names. -/
theorem run_round {base : List Text} {s : State} {q : Pins × Pins} {rest : List Pins} (inv : s.Inv)
    (run : busy s = true) (noWait : s.txWait = false) (sending : Sending base s) (round : IsRound q)
    (pins : s.pins = q.1 :: q.2 :: rest) :
    ∃ f u, (∀ n, Host.Core.run core (n + 2) s = Host.Core.run core n (afterRound f u s))
      ∧ (afterRound f u s).Inv ∧ Sending base (handOver f (setLrc u (advance s))) := by
  obtain ⟨running, ready, running', done⟩ := round
  have now := pinsNow_cons s _ _ pins
  have enabled : emitEnabled s = true := (emitEnabled_iff s).mpr ⟨run, noWait, inv.unfaulted_of_busy run⟩
  obtain ⟨f, u, emitted, frame, part⟩ := step_emit inv (now ▸ running) (now ▸ ready) enabled
  have inv' := (stepEffect_of_step emitted).inv inv
  have now' : pinsNow (handOver f (setLrc u (advance s))) = q.2 := pinsNow_cons _ _ rest (by simp [pins])
  have confirmed := step_eq_confirm (now' ▸ running') (now' ▸ done) rfl
  exact ⟨f, u, fun n => (run_succ emitted (n + 1)).trans (run_succ confirmed n),
    (stepEffect_of_step confirmed).inv inv',
    sending.handOver noWait (Seq.lt_of_busy inv run) frame rfl rfl rfl rfl⟩

/-- As many rounds as the sequence has frames left send them all, by induction on the rounds. -/
theorem run_rounds {base : List Text} {later : List Pins} (rounds : List (Pins × Pins)) {s : State} (inv : s.Inv)
    (run : busy s = true) (noWait : s.txWait = false) (sending : Sending base s) (good : ∀ q ∈ rounds, IsRound q)
    (count : rounds.length + s.seq.idx.toNat = seqLen s.seq.kind)
    (pins : s.pins = rounds.flatMap (fun q => [q.1, q.2]) ++ later) :
    ∃ t, Host.Core.run core (2 * rounds.length) s = .next t ∧ SentAll base later s t := by
  induction rounds generalizing s with
  | nil =>
    have lt := Seq.lt_of_busy inv run
    simp only [List.length_nil] at count
    omega
  | cons q rounds ih =>
    obtain ⟨f, u, runs, inv', sending'⟩ :=
      run_round inv run noWait sending (good q (by simp)) (rest := rounds.flatMap (fun q => [q.1, q.2]) ++ later)
        (by simpa using pins)
    have pins' : (afterRound f u s).pins = rounds.flatMap (fun q => [q.1, q.2]) ++ later := by simp [afterRound, pins]
    rw [List.length_cons, Nat.mul_succ, runs]
    rw [List.length_cons] at count
    by_cases more : s.seq.idx.toNat + 1 < seqLen s.seq.kind
    · have seq : (afterRound f u s).seq = { s.seq with idx := s.seq.idx + 1 } := seqAfterDone_of_lt more
      have run' : busy (afterRound f u s) = true := (busy_confirm (s := advance (handOver f _)) run).mpr more
      have sending'' : Sending base (afterRound f u s) :=
        Sending.confirm (s := advance (handOver f _)) sending' rfl more
      obtain ⟨t, ran, sent⟩ := ih inv' run' rfl sending'' (fun q hq => good q (by simp [hq]))
        (by simp only [seq, toNat_idx_succ more]; omega) pins'
      exact ⟨t, ran, { sent with log := by simpa [seq] using sent.log }⟩
    · obtain rfl : rounds = [] := List.eq_nil_of_length_eq_zero (by omega)
      exact ⟨afterRound f u s, rfl, {
        log := Sending.all_of_last sending' rfl more
        seq := seqAfterDone_of_last more
        noWait := rfl
        fault := rfl
        pb := rfl
        pbs := rfl
        pbsV := rfl
        cmds := rfl
        pins := pins' }⟩

/-- Settles O43: the accepted UPDATE starts a sequence that has handed over nothing, and twelve rounds end it. -/
theorem updateSendsItsTwelveFrames : Obligations.UpdateSendsItsTwelveFrames := by
  intro s ws p rounds later inv acc count good pins
  obtain ⟨-, noWait, -, ready, -⟩ := id acc
  have accepted := (step_of_accepts_instr acc (by decide)).trans (exec_update (s.afterTake ws))
  obtain ⟨t, ran, sent⟩ := run_rounds rounds ((stepEffect_of_step accepted).inv inv) (base := s.txLog) (later := later)
    rfl noWait (sending_start noWait rfl) good (by simp [count, seqLen]) (congrArg List.tail pins)
  rw [count] at ran
  exact ⟨t, (run_succ accepted 24).trans ran, sent.log, sent.seq, sent.noWait,
    sent.fault.trans ((cmdReady_iff s).mp ready).1, sent.pb, sent.pbs, sent.pbsV, sent.cmds, sent.pins⟩

end Sys2Proof.Machine
end

section
/-! Acceptance on the two ports (30_encoding.md R56, R57; 70_reset_and_hazards.md R131), and what an accepted word
leaves unchanged. -/

namespace Sys2Proof.Machine

open Sys2Proof

/-- A beat is offered the port only where no command is transferred. -/
theorem noCommand_of_lrcReadyPin {p : Pins} {s : State} (ready : lrcReadyPin p s = true) :
    cmdTransfer p s = false ∧ lrcReady s = true := by
  simp only [lrcReadyPin, Bool.or_eq_true, Bool.and_eq_true, Bool.not_eq_true'] at ready
  rcases ready with part | ⟨ready, noCommand⟩
  · simp [cmdTransfer, cmdReady, lrcReady, part]
  · exact ⟨noCommand, lrcReady_of_cmdReady ready⟩

theorem step_of_acceptsBeat {s : State} {b : Beat} {bs : List Beat} (acc : s.AcceptsBeat b bs) :
    step s = exec (decodeBeat b) (s.afterTakeBeat bs) := by
  obtain ⟨running, noWait, idle, valid, ready, offered⟩ := acc
  obtain ⟨noCommand, ready⟩ := noCommand_of_lrcReadyPin ready
  simp [step, move, serve, transfer, running, noWait, valid, ready, offered, emitEnabled, idle, noCommand,
    State.afterTakeBeat, runWord, decode]

/-- The later beats of a string are accepted without condition. -/
theorem acceptsBeat_of_partWay {s : State} {b : Beat} {bs : List Beat} (inv : s.Inv) (part : s.lrc.partWay = true)
    (running : (pinsNow s).rst = false) (valid : (pinsNow s).lrcValid = true) (offered : s.beats = b :: bs) :
    s.AcceptsBeat b bs :=
  have idle := (inv.stringIdle part).1
  ⟨running, inv.noWait_of_idle idle, idle, valid, by simp [lrcReadyPin, part], offered⟩

theorem cmdReady_iff_kind (s : State) :
    cmdReady s = true ↔ s.fault = .noFault ∧ s.seq.kind = .idle ∧ s.lrc.partWay = false := by
  rw [cmdReady_iff, busy_eq_false_iff]

theorem lrcReadyPin_iff (p : Pins) (s : State) :
    lrcReadyPin p s = true ↔ s.lrc.partWay = true
      ∨ s.fault = .noFault ∧ s.seq.kind = .idle ∧ ¬(p.cmdValid = true ∧ s.cmds ≠ []) := by
  cases part : s.lrc.partWay with
  | true => simp [lrcReadyPin, part]
  | false =>
    have ready := cmdReady_iff_kind s
    simp only [part, and_true] at ready
    by_cases h : cmdReady s = true
    · by_cases valid : p.cmdValid = true <;> simp [lrcReadyPin, cmdTransfer, part, h, ready.mp h, valid]
    · have notReady := fun fault idle => h (ready.mpr ⟨fault, idle⟩)
      simpa [lrcReadyPin, part, h] using fun fault idle => absurd idle (notReady fault)

/-- Settles O6: an accepted word passes `move` and `transfer` and is decoded. -/
theorem stepRunsDecodedInstruction : Obligations.StepRunsDecodedInstruction := by
  intro s i
  have beat : ∀ b bs, s.AcceptsBeat b bs → decode (.beat b) = .instr i → step s = exec i (s.afterTakeBeat bs) :=
    fun b bs acc dec => by cases dec; exact step_of_acceptsBeat acc
  exact ⟨fun w ws => step_of_accepts_instr, beat,
    fun b bs inv part running valid offered => beat b bs (acceptsBeat_of_partWay inv part running valid offered),
    cmdReady_iff_kind s, fun p => lrcReadyPin_iff p s⟩

/-- An accepted command leaves what is offered and the LRC unit alone. -/
theorem CommandEffect.ports {w : CmdWord} {s t : State} (effect : CommandEffect w s t) :
    t.cmds = s.cmds ∧ t.beats = s.beats ∧ t.lrc = s.lrc := by
  cases effect <;> exact ⟨rfl, rfl, rfl⟩

/-- An accepted beat leaves what is offered, the buffer and the packed stream alone. -/
theorem BeatEffect.frame {last : Bool} {s t : State} (effect : BeatEffect last s t) :
    t.cmds = s.cmds ∧ t.beats = s.beats ∧ t.pb = s.pb ∧ t.pbs = s.pbs ∧ t.pbsV = s.pbsV := by
  cases effect <;> exact ⟨rfl, rfl, rfl, rfl, rfl⟩

/-- Settles O8. -/
theorem commandTakenBeforeFirstBeat : Obligations.CommandTakenBeforeFirstBeat := by
  intro s t w ws acc _ noString h
  obtain ⟨cmds, beats, lrc⟩ := (commandEffect_of_runWord ((step_of_accepts acc).symm.trans h)).ports
  exact ⟨cmds, beats, (congrArg LrcUnit.partWay lrc).trans noString⟩

theorem State.Inv.not_lrcReady (inv : s.Inv) (held : busy s = true ∨ s.fault ≠ .noFault) : lrcReady s ≠ true :=
  fun ready => by
    obtain ⟨idle, unfaulted⟩ := inv.idle_of_lrcReady ready
    rcases held with run | faulted
    · simp [idle] at run
    · exact faulted unfaulted

/-- Settles O9: neither port is ready, and the other effects leave the words, PB and PBS alone. -/
theorem nothingAcceptedWhileBusyOrFaulted : Obligations.NothingAcceptedWhileBusyOrFaulted := by
  intro s t inv held h
  cases stepEffect_of_step h with
  | reset rst => exact ⟨rfl, rfl, fun running => by simp [running] at rst⟩
  | confirmed done wait => exact ⟨rfl, rfl, fun _ => ⟨rfl, rfl, rfl⟩⟩
  | handedOver f u ready enabled frame part => exact ⟨rfl, rfl, fun _ => ⟨rfl, rfl, rfl⟩⟩
  | command w ws offered valid ready effect => exact absurd (lrcReady_of_cmdReady ready) (inv.not_lrcReady held)
  | beat b bs offered valid ready effect => exact absurd ready (inv.not_lrcReady held)
  | waited => exact ⟨rfl, rfl, fun _ => ⟨rfl, rfl, rfl⟩⟩

theorem BeatEffect.last_of_ended {last : Bool} {s t : State} (effect : BeatEffect last s t)
    (ended : t.lrc.partWay = false) : last = true := by
  cases effect with
  | more u notLast part => exact absurd (part.symm.trans ended) (by decide)
  | result u res isLast _ => exact isLast
  | malformed u isLast _ => exact isLast

/-- Settles O10: with a string part-way in only a beat can be accepted, and only its last mark ends the string. -/
theorem stringPartWayHoldsCommands : Obligations.StringPartWayHoldsCommands := by
  intro s t inv part running h
  have idle := (inv.stringIdle part).1
  cases stepEffect_of_step h with
  | reset rst => simp [running] at rst
  | confirmed done wait => simp [inv.noWait_of_idle idle] at wait
  | handedOver f u ready enabled frame same => simp [emitEnabled, idle] at enabled
  | command w ws offered valid ready effect => simp [cmdReady, part] at ready
  | beat b bs offered valid ready effect =>
    obtain ⟨cmds, -, pb, -, -⟩ := effect.frame
    exact ⟨cmds, pb, effect.txLog_eq, fun ended => ⟨b, bs, offered, effect.last_of_ended ended⟩⟩
  | waited => exact ⟨rfl, rfl, rfl, fun ended => absurd (part.symm.trans ended) (by decide)⟩

end Sys2Proof.Machine
end

section
/-! Who writes the pixel buffer and the packed stream (10_state.md section 2, 20_memory.md section 13). -/

namespace Sys2Proof.Machine

open Sys2Proof

/-- Settles O19: of all effects only `pixels` and a reset write PB. -/
theorem onlyPixelOperationsChangePixels : Obligations.OnlyPixelOperationsChangePixels := by
  intro s t inv h running changed
  cases stepEffect_of_step h with
  | reset rst => simp [running] at rst
  | confirmed done wait => exact absurd rfl changed
  | handedOver f u ready enabled frame part => exact absurd rfl changed
  | command w ws offered valid ready effect =>
    have acc := inv.accepts running offered valid ready
    cases effect with
    | pixels pb i dec name => exact ⟨w, ws, i, acc, dec, name⟩
    | pack dec => exact absurd rfl changed
    | update dec => exact absurd rfl changed
    | init => exact absurd rfl changed
    | encreg k register packed => exact absurd rfl changed
    | fault f => exact absurd rfl changed
  | beat b bs offered valid ready effect =>
    obtain ⟨-, -, pb, -, -⟩ := effect.frame
    exact absurd pb changed
  | waited => exact absurd rfl changed

/-- PACK or UPDATE was accepted in the step from s to t, and t holds the pack of the buffer. -/
def PackedIn (s t : State) : Prop :=
  (∃ w ws, s.Accepts w ws ∧ (decode (.cmd w) = .instr .pack ∨ decode (.cmd w) = .instr .update))
  ∧ t.pbs = pack s.pb ∧ t.pb = s.pb ∧ t.pbsV = true

/-- A step without reset packs, or leaves PBS and PBS_V alone. -/
theorem StepEffect.packs_or_keeps {s t : State} (inv : s.Inv) (running : (pinsNow s).rst = false)
    (effect : StepEffect s t) : PackedIn s t ∨ t.pbs = s.pbs ∧ t.pbsV = s.pbsV := by
  cases effect with
  | reset rst => simp [running] at rst
  | confirmed done wait => exact .inr ⟨rfl, rfl⟩
  | handedOver f u ready enabled frame part => exact .inr ⟨rfl, rfl⟩
  | command w ws offered valid ready effect =>
    have acc := inv.accepts running offered valid ready
    cases effect with
    | pixels pb i dec name => exact .inr ⟨rfl, rfl⟩
    | pack dec => exact .inl ⟨⟨w, ws, acc, .inl dec⟩, rfl, rfl, rfl⟩
    | update dec => exact .inl ⟨⟨w, ws, acc, .inr dec⟩, rfl, rfl, rfl⟩
    | init => exact .inr ⟨rfl, rfl⟩
    | encreg k register packed => exact .inr ⟨rfl, rfl⟩
    | fault f => exact .inr ⟨rfl, rfl⟩
  | beat b bs offered valid ready effect =>
    obtain ⟨-, -, -, pbs, pbsV⟩ := effect.frame
    exact .inr ⟨pbs, pbsV⟩
  | waited => exact .inr ⟨rfl, rfl⟩

/-- Settles O24. -/
theorem packedStreamChangesOnlyByPack : Obligations.PackedStreamChangesOnlyByPack := by
  intro s t inv h
  refine ⟨fun running changed => ?_, fun running changed => ?_, fun rst => ?_⟩
  · exact ((stepEffect_of_step h).packs_or_keeps inv running).resolve_right fun same => changed same.1
  · obtain ⟨accepted, -, -, valid⟩ :=
      ((stepEffect_of_step h).packs_or_keeps inv running).resolve_right fun same => changed same.2
    exact ⟨accepted, valid⟩
  · rw [step_reset rst] at h
    cases h
    rfl

end Sys2Proof.Machine
end

section
/-! The instructions one by one: each completes, what it starts or raises, and what it leaves unchanged. -/

namespace Sys2Proof.Machine

open Sys2Proof

/-- Settles O55: no effect of `exec` writes the fields named. -/
theorem everyInstructionAnswersNext : Obligations.EveryInstructionAnswersNext := by
  intro i s
  obtain ⟨t, h⟩ := exec_answers i s
  refine ⟨t, h, ?_⟩
  rcases exec_cases h with
    ⟨pb, rfl, -⟩ | ⟨-, rfl⟩ | ⟨-, rfl⟩ | ⟨-, rfl⟩ | ⟨k, -, -, -, rfl⟩ | ⟨k, -, -, rfl⟩ | ⟨k, -, -, -, rfl⟩
    | ⟨x, y, -, -, rfl⟩ | ⟨c, -, rfl⟩ | ⟨c, -, -, rfl⟩ | ⟨c, -, -, rfl⟩
  all_goals exact ⟨rfl, rfl, rfl, rfl, rfl, rfl, rfl, rfl⟩

/-- Settles O46: three instructions raise a fault, TGLDOT and ENCREG by `raiseFault` alone. -/
theorem faultWritesOnlyTheCode : Obligations.FaultWritesOnlyTheCode := by
  intro i s t h unfaulted faulted
  rcases exec_cases h with
    ⟨pb, rfl, -⟩ | ⟨-, rfl⟩ | ⟨-, rfl⟩ | ⟨-, rfl⟩ | ⟨k, -, -, -, rfl⟩ | ⟨k, rfl, -, rfl⟩ | ⟨k, rfl, -, -, rfl⟩
    | ⟨x, y, rfl, -, rfl⟩ | ⟨c, -, rfl⟩ | ⟨c, -, -, rfl⟩ | ⟨c, rfl, -, rfl⟩
  · exact absurd unfaulted faulted
  · exact absurd unfaulted faulted
  · exact absurd unfaulted faulted
  · exact absurd unfaulted faulted
  · exact absurd unfaulted faulted
  · exact .inl ⟨rfl, by simp [Instr.mnemonic]⟩
  · exact .inl ⟨rfl, by simp [Instr.mnemonic]⟩
  · exact .inl ⟨rfl, by simp [Instr.mnemonic]⟩
  · exact absurd unfaulted faulted
  · exact absurd unfaulted faulted
  · exact .inr ⟨rfl, rfl, rfl⟩

theorem exec_encreg_packed {k : BitVec 3} {s : State} (register : k.toNat ≤ 5) (packed : s.pbsV = true) :
    exec (.encreg k) s = .next (setSeq { kind := .one, idx := 0, k := k } s) := by
  simp [exec, execEncreg, register, packed]

theorem exec_encreg_noRegister {k : BitVec 3} (s : State) (noRegister : 5 < k.toNat) :
    exec (.encreg k) s = .next (raiseFault .reservedCmd s) := by
  simp [exec, execEncreg, noRegister]

/-- Settles O38. -/
theorem commandsStartSequences : Obligations.CommandsStartSequences := fun s =>
  ⟨fun _ register packed => ⟨_, exec_encreg_packed register packed, rfl, rfl⟩,
    ⟨_, exec_update s, rfl, rfl, rfl, rfl⟩, _, rfl, rfl, rfl⟩

/-- Settles O48. -/
theorem encregNumberCheckedFirst : Obligations.EncregNumberCheckedFirst := fun _ s noRegister =>
  ⟨_, exec_encreg_noRegister s noRegister, rfl, rfl⟩

end Sys2Proof.Machine
end

section
/-! Reset and STATUS (10_state.md sections 5 and 11, 70_reset_and_hazards.md section 1). -/

namespace Sys2Proof.Machine

open Sys2Proof

/-- Settles O49. -/
theorem resetStateValues : Obligations.ResetStateValues :=
  ⟨fun _ _ => pbGet_reset, rfl, rfl, rfl, rfl, by decide, rfl, rfl⟩

/-- Settles O50: the pin is read before everything else, and `resetCore` writes the reset values. -/
theorem resetFromAnyState : Obligations.ResetFromAnyState := fun _ rst =>
  ⟨_, step_reset rst, fun _ _ => pbGet_reset, rfl, rfl, rfl, rfl, rfl, rfl, rfl, rfl⟩

/-- Settles O51: each field is read at its place among the eight that STATUS joins. -/
theorem statusFields : Obligations.StatusFields := by
  refine ⟨rfl, rfl, fun s => ?_⟩
  simp (disch := decide) only [status, BitVec.getLsbD_append, BitVec.extractLsb'_append_eq_of_le,
    BitVec.extractLsb'_append_eq_of_add_le]
  simp [busy]

end Sys2Proof.Machine
end

section
/-! The pixel operations (40_pixel_ops.md sections 2 and 3): which cell a dot names, what a write of it leaves, and how
the operations compose. -/

namespace Sys2Proof.Machine

open Sys2Proof

variable {x y : Coord}

/-- An in-range pair names a cell, by its signed operands. -/
theorem cell_of_inRange (range : inRange (coord x) (coord y) = true) :
    (cellIndex x < 90 ∧ (cellIndex x : Int) = x.toInt) ∧ cellIndex y < 8 ∧ (cellIndex y : Int) = y.toInt := by
  have bounds := (inRange_iff _ _).mp range
  simp only [cellIndex, coord] at bounds ⊢
  omega

/-- The write of the cell a pair names, read cell by cell. -/
theorem pbGet_pbSet_cell (range : inRange (coord x) (coord y) = true) (pb : PixelBuf) (v : Bool) (cx cy : Nat) :
    pbGet (pbSet pb (cellIndex x) (cellIndex y) v) cx cy
      = if (cx : Int) = x.toInt ∧ (cy : Int) = y.toInt then v else pbGet pb cx cy := by
  obtain ⟨⟨hx, xEq⟩, hy, yEq⟩ := cell_of_inRange range
  simp only [pbGet_pbSet pb hx hy, ← xEq, ← yEq, Nat.cast_inj]

theorem writeDot_of_inRange (range : inRange (coord x) (coord y) = true) (v : Bool) (s : State) :
    writeDot x y v s = setPb (pbSet s.pb (cellIndex x) (cellIndex y) v) s := if_pos range

theorem writeDot_of_outOfRange (out : inRange (coord x) (coord y) = false) (v : Bool) (s : State) :
    writeDot x y v s = s := if_neg (by simp [out])

theorem outOfRange_iff : inRange (coord x) (coord y) = false
    ↔ ¬(0 ≤ x.toInt ∧ x.toInt ≤ 89 ∧ 0 ≤ y.toInt ∧ y.toInt ≤ 7) := by
  rw [← Bool.not_eq_true, inRange_iff]
  rfl

/-- A dot written: the frame, every cell, and the pair that is ignored. -/
theorem writeDot_spec (x y : Coord) (v : Bool) (s : State) :
    { writeDot x y v s with pb := s.pb } = s
    ∧ (∀ cx cy, cx < 90 → cy < 8 → pbGet (writeDot x y v s).pb cx cy
        = if (cx : Int) = x.toInt ∧ (cy : Int) = y.toInt then v else pbGet s.pb cx cy)
    ∧ (¬(0 ≤ x.toInt ∧ x.toInt ≤ 89 ∧ 0 ≤ y.toInt ∧ y.toInt ≤ 7) → writeDot x y v s = s) := by
  cases range : inRange (coord x) (coord y) with
  | true =>
    refine ⟨by rw [writeDot_of_inRange range]; rfl, fun cx cy _ _ => ?_, fun out => ?_⟩
    · rw [writeDot_of_inRange range]
      exact pbGet_pbSet_cell range s.pb v cx cy
    · simp [outOfRange_iff.mpr out] at range
  | false =>
    rw [writeDot_of_outOfRange range]
    refine ⟨rfl, fun cx cy hx hy => (if_neg ?_).symm, fun _ => rfl⟩
    have out := outOfRange_iff.mp range
    omega

/-- Settles O11. -/
theorem setdotWritesOneCell : Obligations.SetdotWritesOneCell := fun x y s => ⟨_, rfl, writeDot_spec x y true s⟩

/-- Settles O12. -/
theorem clrdotClearsOneCell : Obligations.ClrdotClearsOneCell := fun x y s => ⟨_, rfl, writeDot_spec x y false s⟩

theorem exec_tgldot_inRange (range : inRange (coord x) (coord y) = true) (s : State) :
    exec (.tgldot x y) s
      = .next (setPb (pbSet s.pb (cellIndex x) (cellIndex y) (!pbGet s.pb (cellIndex x) (cellIndex y))) s) := by
  simp [exec, execTgldot, range]

/-- Settles O13. -/
theorem tgldotFlipsOneCell : Obligations.TgldotFlipsOneCell := by
  intro x y s x0 x89 y0 y7
  have range : inRange (coord x) (coord y) = true := (inRange_iff _ _).mpr ⟨x0, x89, y0, y7⟩
  obtain ⟨⟨-, xEq⟩, -, yEq⟩ := cell_of_inRange range
  refine ⟨_, exec_tgldot_inRange range s, rfl, fun cx cy _ _ => ?_⟩
  rw [setPb_pb, pbGet_pbSet_cell range]
  by_cases here : (cx : Int) = x.toInt ∧ (cy : Int) = y.toInt
  · obtain ⟨rfl, rfl⟩ : cx = cellIndex x ∧ cy = cellIndex y := by omega
    rfl
  · rw [if_neg here, if_neg here]

/-- Settles O16. -/
theorem wholeBufferOperations : Obligations.WholeBufferOperations := fun _ =>
  ⟨_, _, _, rfl, rfl, rfl, rfl, rfl, rfl, fun _ _ hx hy =>
    ⟨pbGet_pbFill true hx hy, pbGet_pbFill false hx hy, pbGet_pbInvert _ hx hy⟩⟩

@[simp] theorem setPb_self (s : State) : setPb s.pb s = s := rfl

@[simp] theorem setPb_setPb (a b : PixelBuf) (s : State) : setPb a (setPb b s) = setPb a s := rfl

theorem pbInvert_pbInvert (pb : PixelBuf) : pbInvert (pbInvert pb) = pb :=
  pb_ext fun x y hx hy => by rw [pbGet_pbInvert _ hx hy, pbGet_pbInvert _ hx hy, Bool.not_not]

theorem pbInvert_pbFill (v : Bool) : pbInvert (pbFill v) = pbFill !v :=
  pb_ext fun x y hx hy => by rw [pbGet_pbInvert _ hx hy, pbGet_pbFill _ hx hy, pbGet_pbFill _ hx hy]

/-- The later write of a cell stands. -/
theorem pbSet_pbSet (pb : PixelBuf) {x y : Nat} (hx : x < 90) (hy : y < 8) (v w : Bool) :
    pbSet (pbSet pb x y v) x y w = pbSet pb x y w :=
  pb_ext fun a b _ _ => by
    rw [pbGet_pbSet _ hx hy, pbGet_pbSet _ hx hy, pbGet_pbSet _ hx hy]
    split <;> rfl

theorem pbSet_pbGet (pb : PixelBuf) {x y : Nat} (hx : x < 90) (hy : y < 8) : pbSet pb x y (pbGet pb x y) = pb :=
  pb_ext fun a b _ _ => by
    rw [pbGet_pbSet _ hx hy]
    split
    next here => rw [here.1, here.2]
    next => rfl

theorem runAll_pair {i j : Instr} {s t : State} (h : exec i s = .next t) : runAll [i, j] s = exec j t := by
  obtain ⟨u, hu⟩ := exec_answers j t
  simp [runAll, h, hu]

theorem runAll_tgldot_twice (range : inRange (coord x) (coord y) = true) (s : State) :
    runAll [.tgldot x y, .tgldot x y] s = .next s := by
  obtain ⟨⟨hx, -⟩, hy, -⟩ := cell_of_inRange range
  rw [runAll_pair (exec_tgldot_inRange range s), exec_tgldot_inRange range]
  simp [pbSet_pbSet _ hx hy, pbGet_pbSet _ hx hy, pbSet_pbGet _ hx hy]

/-- Settles O17: an inversion of each cell, and of one cell, is its own inverse. -/
theorem invertingTwiceRestores : Obligations.InvertingTwiceRestores := fun s =>
  ⟨congrArg (fun pb => Host.Outcome.next (setPb pb s)) (pbInvert_pbInvert s.pb),
    fun _ _ range => runAll_tgldot_twice range s⟩

theorem writeDot_writeDot (x y : Coord) (v w : Bool) (s : State) :
    writeDot x y w (writeDot x y v s) = writeDot x y w s := by
  cases range : inRange (coord x) (coord y) with
  | true =>
    obtain ⟨⟨hx, -⟩, hy, -⟩ := cell_of_inRange range
    simp [writeDot_of_inRange range, pbSet_pbSet _ hx hy]
  | false => simp [writeDot_of_outOfRange range]

/-- Settles O18. -/
theorem pixelOperationsCompose : Obligations.PixelOperationsCompose := fun s =>
  ⟨congrArg (fun pb => Host.Outcome.next (setPb pb s)) (pbInvert_pbFill true),
    congrArg (fun pb => Host.Outcome.next (setPb pb s)) (pbInvert_pbFill false),
    fun x y => congrArg Host.Outcome.next (writeDot_writeDot x y true false s)⟩

end Sys2Proof.Machine
end

section
/-! The packer as a map of buffers to byte sequences (41_pack.md sections 2 and 3). -/

namespace Sys2Proof.Machine

open Sys2Proof

/-- A byte is the sum of its bits' weights. -/
theorem toNat_eq_sum_bits (b : Byte) :
    b.toNat = ((List.range 8).map fun y => if b.getLsbD y then 2 ^ y else 0).sum := by
  revert b; decide

/-- Settles O21. -/
theorem packWritesClosedForm : Obligations.PackWritesClosedForm := by
  intro s
  refine ⟨_, exec_pack s, rfl, fun x hx => ?_, rfl⟩
  rw [toNat_eq_sum_bits]
  refine congrArg List.sum (List.map_congr_left fun y hy => ?_)
  have bit : ((pack s.pb)[x]'hx).getLsbD y = pbGet s.pb x y := getLsbD_pack s.pb hx (List.mem_range.mp hy)
  exact congrArg (fun v => if v = true then 2 ^ y else 0) bit

/-- The buffer whose cells are the bits of a byte sequence. -/
def unpack (bytes : Packed) : PixelBuf := Vector.ofFn fun x => Vector.ofFn fun y => (bytes[x]).getLsbD y

theorem pbGet_unpack (bytes : Packed) {x y : Nat} (hx : x < 90) (hy : y < 8) :
    pbGet (unpack bytes) x y = (bytes[x]'hx).getLsbD y := by
  rw [pbGet_inside _ hx hy, BitVec.getLsbD_eq_getElem hy]; simp [unpack]

/-- A packed stream is known by the cells of its buffer. -/
theorem pack_eq_iff {pb : PixelBuf} {bytes : Packed} :
    pack pb = bytes ↔ ∀ (x y : Nat) (hx : x < 90), y < 8 → pbGet pb x y = (bytes[x]'hx).getLsbD y := by
  constructor
  · rintro rfl x y hx hy
    exact (getLsbD_pack pb hx hy).symm
  · intro cells
    refine Vector.ext fun x hx => BitVec.eq_of_getLsbD_eq fun y hy => ?_
    exact (getLsbD_pack pb hx hy).trans (cells x y hx hy)

/-- Settles O22: `unpack` is the inverse. -/
theorem packIsBijective : Obligations.PackIsBijective := by
  refine ⟨fun a b same => pb_ext fun x y hx hy => ?_, fun bytes => ⟨unpack bytes, ?_⟩⟩
  · rw [pack_eq_iff.mp same x y hx hy, getLsbD_pack b hx hy]
  · exact pack_eq_iff.mpr fun x y hx hy => pbGet_unpack bytes hx hy

/-- Settles O23, bit by bit. -/
theorem packCommutesWithInversion : Obligations.PackCommutesWithInversion := by
  intro pb x hx
  refine ⟨?_, ?_, ?_⟩ <;> refine BitVec.eq_of_getLsbD_eq fun y hy => (getLsbD_pack _ hx hy).trans ?_
  · rw [pbGet_pbInvert pb hx hy, BitVec.getLsbD_not, getLsbD_pack pb hx hy]
    simp [hy]
  · rw [pbGet_pbFill false hx hy]
    exact BitVec.getLsbD_zero.symm
  · rw [pbGet_pbFill true hx hy]
    exact (BitVec.getLsbD_allOnes.trans (by simpa using hy)).symm

end Sys2Proof.Machine
end

section
/-! The checksum of a string (42_lrc.md section 1): when there is one, and that it negates the sum of the bytes. -/

namespace Sys2Proof.Machine

open Sys2Proof

theorem lrcByte_eq_neg (n : Nat) : lrcByte n = -BitVec.ofNat 8 n := (BitVec.neg_eq_not_add _).symm

theorem toNat_lrcByte (n : Nat) : (lrcByte n).toNat = (256 - n % 256) % 256 := by
  rw [lrcByte_eq_neg, BitVec.toNat_neg, BitVec.toNat_ofNat]

theorem lrcOf_of_hexPairs? {t : Text} {bytes : List Nat} (read : hexPairs? t = some bytes) :
    lrcOf t = some (hex2 (lrcByte bytes.sum)) := by simp [lrcOf, read]

/-- Settles O26. -/
theorem checksumNegatesTheSum : Obligations.ChecksumNegatesTheSum := by
  refine fun t bytes read => ⟨lrcOf_of_hexPairs? read, toNat_lrcByte _, ?_⟩
  rw [toNat_lrcByte]
  omega

theorem lrcOf_eq_none_iff (t : Text) : lrcOf t = none ↔ hexPairs? t = none := by simp [lrcOf]

theorem hexPairs?_cons_cons_eq_none_iff (h l : Byte) (t : Text) :
    hexPairs? (h :: l :: t) = none ↔ (isHex h = false ∨ isHex l = false) ∨ hexPairs? t = none := by
  simp only [hexPairs?, isHex_eq_false_iff]
  cases hexVal? h <;> cases hexVal? l <;> cases hexPairs? t <;> simp

/-- Reading pairs fails on an odd length or a character that is no digit, at any place; by the recursion of the
reading. -/
theorem hexPairs?_eq_none_iff (t : Text) : hexPairs? t = none ↔ t.length % 2 = 1 ∨ ∃ c ∈ t, isHex c = false := by
  induction t using List.twoStepInduction with
  | nil => simp [hexPairs?]
  | singleton c => simp [hexPairs?]
  | cons_cons h l t ih _ =>
    rw [hexPairs?_cons_cons_eq_none_iff, ih, List.length_cons, List.length_cons, Nat.add_assoc, Nat.add_mod_right]
    simp only [List.exists_mem_cons_iff]
    tauto

theorem hex2_upper (b : Byte) : (hex2 b).length = 2 ∧ (hex2 b).all isUpperHex = true := by simp [hex2]

/-- Settles O27. -/
theorem malformedExactlyOddOrNotHex : Obligations.MalformedExactlyOddOrNotHex := by
  refine fun t => ⟨(lrcOf_eq_none_iff t).trans (hexPairs?_eq_none_iff t), fun c sum => ?_⟩
  obtain ⟨bytes, -, rfl⟩ := Option.map_eq_some_iff.mp sum
  exact hex2_upper _

/-- Settles O28: the checksum reads of the bytes only their sum. -/
theorem checksumIgnoresByteOrder : Obligations.ChecksumIgnoresByteOrder := by
  refine ⟨fun t u as bs readT readU perm => ?_, fun as bs perm => ?_⟩
  · rw [lrcOf_of_hexPairs? readT, lrcOf_of_hexPairs? readU, perm.sum_eq]
  · rw [lrcOf_hexText, lrcOf_hexText, (perm.map BitVec.toNat).sum_eq]

end Sys2Proof.Machine
end

section
/-! The LRC port (42_lrc.md section 2): a beat, and a whole string. -/

namespace Sys2Proof.Machine

open Sys2Proof

/-- Settles O30. -/
theorem lrcBeatCompletes : Obligations.LrcBeatCompletes := by
  intro last c s
  obtain ⟨t, h⟩ := exec_answers (.lrc last c) s
  refine ⟨t, h, ?_⟩
  cases beatEffect_of_exec h with
  | more u notLast part => exact ⟨fun _ => ⟨rfl, part⟩, fun isLast => by simp [notLast] at isLast⟩
  | result u res isLast ended =>
    exact ⟨fun notLast => by simp [isLast] at notLast, fun _ => ⟨ended, rfl, _, rfl, rfl⟩⟩
  | malformed u isLast ended =>
    exact ⟨fun notLast => by simp [isLast] at notLast, fun _ => ⟨ended, rfl, _, rfl, rfl⟩⟩

/-- The unit after the characters of a whole string. -/
def unitAfter (t : Text) : LrcUnit := t.foldl lrcFeed lrcClear

/-- The beats before the last leave the unit such that the last one completes `unitAfter`. -/
theorem runAll_lrcBeats {t : Text} {s : State} (ne : t ≠ []) (fresh : s.lrc.partWay = false) :
    ∃ c v, lrcFeed (lrcStart v) c = unitAfter t ∧ runAll (lrcBeats t) s = exec (.lrc true c) (setLrc v s) := by
  obtain rfl | ⟨t, c, rfl⟩ := t.eq_nil_or_concat'
  · exact absurd rfl ne
  obtain ⟨v, run, start⟩ := runAll_beats t s
  obtain ⟨u, last⟩ := exec_answers (.lrc true c) (setLrc v s)
  refine ⟨c, v, by simp [unitAfter, start, lrcStart_of_fresh fresh], ?_⟩
  rw [lrcBeats_concat, runAll_append run, runAll, last]
  rfl

theorem runAll_lrcBeats_malformed {t : Text} {s : State} (ne : t ≠ []) (fresh : s.lrc.partWay = false)
    (bad : lrcMalformed (unitAfter t) = true) :
    runAll (lrcBeats t) s
      = .next (raiseFault .lrcInput (answerError (setLrc { unitAfter t with partWay := false } s))) := by
  obtain ⟨c, v, whole, run⟩ := runAll_lrcBeats ne fresh
  rw [run, exec_lrc_malformed (by rwa [setLrc_lrc, whole]), setLrc_lrc, whole]
  rfl

theorem runAll_lrcBeats_wellFormed {t : Text} {s : State} (ne : t ≠ []) (fresh : s.lrc.partWay = false)
    (ok : lrcMalformed (unitAfter t) = false) :
    runAll (lrcBeats t) s
      = .next (answer { err := false, res := lrcResult (unitAfter t) }
          (setLrc { unitAfter t with partWay := false } s)) := by
  obtain ⟨c, v, whole, run⟩ := runAll_lrcBeats ne fresh
  rw [run, exec_lrc_wellFormed (by rwa [setLrc_lrc, whole]), setLrc_lrc, whole]
  rfl

/-- Only the low 8 bits of the sum count, so 16 bits of ACC are enough (42_lrc.md R87 (d)). -/
theorem setWidth_neg_sum (n : Nat) : (~~~BitVec.ofNat 16 n + 1 : BitVec 16).setWidth 8 = lrcByte n := by
  apply BitVec.eq_of_toNat_eq
  have neg : ~~~BitVec.ofNat 16 n + 1 = -BitVec.ofNat 16 n := (BitVec.neg_eq_not_add _).symm
  rw [toNat_lrcByte, BitVec.toNat_setWidth, neg, BitVec.toNat_neg, BitVec.toNat_ofNat]
  omega

/-- The unit's result for a well-formed string is the two characters of its checksum. -/
theorem lrcResult_unitAfter {t : Text} {hi lo : Byte} (sum : lrcOf t = some [hi, lo]) :
    lrcMalformed (unitAfter t) = false ∧ lrcResult (unitAfter t) = hi ++ lo := by
  obtain ⟨bytes, read, digits⟩ := Option.map_eq_some_iff.mp sum
  have unit := foldl_lrcFeed t lrcClear rfl rfl
  rw [read] at unit
  obtain ⟨ok, acc⟩ := unit
  have acc : (unitAfter t).acc = BitVec.ofNat 16 bytes.sum := acc.trans (BitVec.zero_add _)
  cases digits
  exact ⟨ok, by rw [lrcResult, acc, setWidth_neg_sum]⟩

/-- Settles O29. -/
theorem lrcPortComputesChecksum : Obligations.LrcPortComputesChecksum := by
  intro t s ne fresh
  cases bad : lrcMalformed (unitAfter t) with
  | true =>
    refine ⟨_, runAll_lrcBeats_malformed ne fresh bad, rfl, rfl, fun hi lo sum => ?_, fun _ => ⟨rfl, _, rfl⟩⟩
    simp [(lrcResult_unitAfter sum).1] at bad
  | false =>
    refine ⟨_, runAll_lrcBeats_wellFormed ne fresh bad, rfl, rfl, fun hi lo sum => ?_, fun noSum => ?_⟩
    · rw [(lrcResult_unitAfter sum).2]
      exact ⟨rfl, rfl, rfl⟩
    · exact absurd (bad.symm.trans ((lrcMalformed_foldl_lrcFeed t).mpr noSum)) Bool.false_ne_true

end Sys2Proof.Machine
end

section
/-! Hexadecimal text as a reading of bytes: it loses nothing, and where each byte's digits stand. -/

namespace Sys2Proof.Machine

open Sys2Proof

theorem hexText_injective : Function.Injective hexText := by
  intro as bs same
  have read := congrArg hexPairs? same
  rw [hexPairs?_hexText, hexPairs?_hexText, Option.some_inj] at read
  exact (List.map_injective_iff.mpr fun _ _ => BitVec.eq_of_toNat_eq) read

theorem hexText_concat (bs : List Byte) (b : Byte) : hexText (bs ++ [b]) = hexText bs ++ hex2 b := by simp [hex2]

theorem getElem?_hexText_high (bs : List Byte) (j : Nat) :
    (hexText bs)[2 * j]? = bs[j]?.map fun b => hexChar (b.extractLsb' 4 4) := by
  induction bs generalizing j with
  | nil => simp
  | cons b bs ih => cases j <;> simp [Nat.mul_succ, ih]

theorem getElem?_hexText_low (bs : List Byte) (j : Nat) :
    (hexText bs)[2 * j + 1]? = bs[j]?.map fun b => hexChar (b.extractLsb' 0 4) := by
  induction bs generalizing j with
  | nil => simp
  | cons b bs ih => cases j <;> simp [Nat.mul_succ, ih]

/-- Padding is rendered as zeros. -/
theorem hexText_replicate_zero (n : Nat) : hexText (List.replicate n 0) = List.replicate (2 * n) 0x30 := by
  induction n with
  | zero => rfl
  | succ n ih =>
    rw [List.replicate_succ, hexText_cons, ih, Nat.mul_succ, List.replicate_succ, List.replicate_succ]
    rfl

/-- An even number of uppercase digits is the rendering of bytes. -/
theorem exists_hexText (t : Text) (upper : t.all isUpperHex = true) (even : t.length % 2 = 0) :
    ∃ bs, hexText bs = t := by
  induction t using List.twoStepInduction with
  | nil => exact ⟨[], rfl⟩
  | singleton c => simp at even
  | cons_cons h l t ih _ =>
    simp only [List.all_cons, Bool.and_eq_true] at upper
    obtain ⟨upperH, upperL, upper⟩ := upper
    obtain ⟨bs, rfl⟩ := ih upper (by simpa [Nat.add_assoc] using even)
    obtain ⟨hi, -, rfl⟩ := hexChar_of_upper h upperH
    obtain ⟨lo, -, rfl⟩ := hexChar_of_upper l upperL
    exact ⟨(hi ++ lo) :: bs, by
      rw [hexText_cons, BitVec.extractLsb'_append_eq_left, BitVec.extractLsb'_append_eq_right]⟩

end Sys2Proof.Machine
end

section
/-! The strings of REG_PREFIX (30_encoding.md R62): reading one inverts rendering one. -/

namespace Sys2Proof.Machine

open Sys2Proof

theorem digits_append (b : Byte) : b.extractLsb' 4 4 ++ b.extractLsb' 0 4 = b := by revert b; decide

theorem upperPairs?_hexText (bs : List Byte) : upperPairs? (hexText bs) = some bs := by
  induction bs with
  | nil => rfl
  | cons b bs ih => simp [upperPairs?, ih, digits_append]

theorem all_upper_of_upperPairs? (t : Text) {bs : List Byte} (read : upperPairs? t = some bs) :
    t.all isUpperHex = true ∧ t.length % 2 = 0 := by
  induction t using List.twoStepInduction generalizing bs with
  | nil => exact ⟨rfl, rfl⟩
  | singleton c => cases read
  | cons_cons h l t ih _ =>
    rw [upperPairs?] at read
    split at read
    next upper =>
      split at read
      next more readMore =>
        obtain ⟨all, even⟩ := ih readMore
        simp only [Bool.and_eq_true] at upper
        exact ⟨by simp [upper, all], by simpa [Nat.add_assoc] using even⟩
      next => cases read
    next => cases read

/-- The digits that are read as these bytes are their rendering. -/
theorem upperPairs?_eq_some_iff (t : Text) (bs : List Byte) : upperPairs? t = some bs ↔ hexText bs = t := by
  refine ⟨fun read => ?_, fun text => text ▸ upperPairs?_hexText bs⟩
  obtain ⟨upper, even⟩ := all_upper_of_upperPairs? t read
  obtain ⟨cs, rfl⟩ := exists_hexText t upper even
  rw [upperPairs?_hexText, Option.some_inj] at read
  rw [read]

theorem readPrefix?_cons_marker (digits : Text) (p : PrefixBody) :
    readPrefix? (marker :: digits) = some p ↔ upperPairs? digits = some (p.first :: p.rest) := by
  obtain ⟨b, bs⟩ := p
  simp only [readPrefix?, if_true]
  split
  next c cs read => simp [read]
  next other => exact ⟨nofun, fun read => (other _ _ read).elim⟩

theorem readPrefix?_eq_some_iff (t : Text) (p : PrefixBody) : readPrefix? t = some p ↔ prefixText p = t := by
  cases t with
  | nil => simp [readPrefix?, prefixText]
  | cons m digits =>
    by_cases isMarker : m = marker
    · subst isMarker
      rw [readPrefix?_cons_marker, upperPairs?_eq_some_iff, prefixText, List.cons_inj_right]
    · simp [readPrefix?, prefixText, isMarker, Ne.symm isMarker]

/-- Settles O37: the strings rendered from bytes are those of the four conditions. -/
theorem illFormedPrefixRefused : Obligations.IllFormedPrefixRefused := by
  refine fun t => ⟨?_, readPrefix?_eq_some_iff t⟩
  simp only [readPrefix?_eq_some_iff]
  constructor
  · rintro ⟨p, rfl⟩
    exact ⟨rfl, all_upper_hexText _, by simp [prefixText]; omega, by simp [prefixText]⟩
  · rintro ⟨head, upper, even, two⟩
    obtain ⟨digits, rfl⟩ := List.head?_eq_some_iff.mp head
    obtain ⟨bs, rfl⟩ := exists_hexText digits upper even
    cases bs with
    | nil => simp at two
    | cons b bs => exact ⟨⟨b, bs⟩, rfl⟩

end Sys2Proof.Machine
end

section
/-! The form of a frame (30_encoding.md sections 4 and 5, 43_frame_encoder.md section 1). -/

namespace Sys2Proof.Machine

open Sys2Proof

theorem lrcOf_hexText_eq_checkByte (bs : List Byte) : lrcOf (hexText bs) = some (hex2 (checkByte bs)) :=
  lrcOf_hexText bs

/-- The marker, rendered bytes and their checksum make a frame. -/
theorem frameOk_hexText (body : List Byte) : FrameOk (marker :: hexText (body ++ [checkByte body])) := by
  refine ⟨rfl, all_upper_hexText _, ?_, ?_, ?_⟩
  · simp only [List.tail_cons, length_hexText]; omega
  · simp only [List.tail_cons, length_hexText, List.length_append, List.length_singleton]; omega
  · have length : (hexText (body ++ [checkByte body])).length - 2 = (hexText body).length := by simp
    rw [List.tail_cons, length, hexText_concat, List.take_left, List.drop_left, lrcOf_hexText_eq_checkByte]

theorem frameOk_literal : ∀ f ∈ litStart :: litEnd ++ litInit, FrameOk f := by unfold FrameOk; decide

theorem frameOk_of_frameOf {cfg : Config} {pbs : Packed} {q : Seq} {f : Text} (h : frameOf cfg pbs q = some f) :
    FrameOk f := by
  rcases frameOf_cases h with literal | ⟨k, r, row, text⟩
  · exact frameOk_literal f literal
  · rw [regFrame_eq cfg pbs row, Option.some_inj] at text
    exact text ▸ frameOk_hexText _

/-- Settles O34. -/
theorem everyFrameIsWellFormed : Obligations.EveryFrameIsWellFormed := fun _ _ _ _ h =>
  ⟨frameOk_of_frameOf h, length_le_fbCap h⟩

theorem regFrame_eq_append (cfg : Config) (pbs : Packed) {k : Nat} {r : RegRow} (row : regTable[k]? = some r) :
    regFrame cfg pbs k = some (regPrefix cfg k ++ hexText (payloadBytes pbs r) ++ List.replicate (2 * r.pad) 0x30
      ++ hex2 (checkByte (bodyBytes cfg pbs k r))) := by
  rw [regFrame_eq cfg pbs row, regPrefix_eq cfg (regTable_lt row), hexText_concat, ← hexText_replicate_zero]
  simp [bodyBytes]

theorem getElem?_middle (a b c : Text) {i : Nat} (hi : i < b.length) : (a ++ b ++ c)[a.length + i]? = b[i]? := by
  rw [List.append_assoc, List.getElem?_append_right (Nat.le_add_right _ _), Nat.add_sub_cancel_left,
    List.getElem?_append_left hi]

theorem regTable_bound {k : Nat} {r : RegRow} (row : regTable[k]? = some r) : r.start + r.count ≤ 90 := by
  have bound : ∀ r ∈ regTable, r.start + r.count ≤ 90 := by decide
  exact bound r (List.mem_of_getElem? row)

theorem getElem?_payloadBytes (pbs : Packed) {r : RegRow} {j : Nat} (lt : j < r.count) :
    (payloadBytes pbs r)[j]? = pbs[r.start + j]? := by
  simp [payloadBytes, lt]

/-- In a frame the checksum covers what stands between the marker and it. -/
theorem FrameOk.checksum {f : Text} (ok : FrameOk f) :
    lrcOf ((f.take (f.length - 2)).drop 1) = some (f.drop (f.length - 2)) := by
  obtain ⟨head, -, -, two, sum⟩ := ok
  obtain ⟨digits, rfl⟩ := List.head?_eq_some_iff.mp head
  obtain ⟨n, length⟩ := Nat.exists_eq_add_of_le' two
  simp only [List.tail_cons] at length sum
  simpa [length] using sum

/-- Settles O32: the frame is four parts side by side, and each clause reads one of them. -/
theorem registerFrameLayout : Obligations.RegisterFrameLayout := by
  refine ⟨fun cfg => ⟨rfl, rfl⟩, fun cfg pbs k r row => ?_⟩
  have text := regFrame_eq_append cfg pbs row
  have payload := length_payloadBytes pbs row
  have ok : FrameOk _ := frameOk_hexText (bodyBytes cfg pbs k r)
  rw [← Option.some_inj.mp (text.symm.trans (regFrame_eq cfg pbs row))] at ok
  refine ⟨_, text, length_regFrame cfg pbs row text, ?_, fun j hj => ?_, fun j hj => ?_, ok.checksum⟩
  · rw [List.append_assoc, List.append_assoc, List.take_left]
  · obtain ⟨b, hb⟩ : ∃ b, pbs[r.start + j]? = some b := by
      have bound := regTable_bound row
      exact ⟨_, Vector.getElem?_eq_getElem (show r.start + j < 90 by omega)⟩
    have digits := (getElem?_payloadBytes pbs hj).trans hb
    refine ⟨b, hb, ?_, ?_⟩
    · rw [List.append_assoc _ (List.replicate _ _), getElem?_middle _ _ _ (by simp; omega), getElem?_hexText_high,
        digits]
      rfl
    · rw [List.append_assoc _ (List.replicate _ _), Nat.add_assoc, getElem?_middle _ _ _ (by simp; omega),
        getElem?_hexText_low, digits]
      rfl
  · have start : (regPrefix cfg k).length + 2 * r.count
        = (regPrefix cfg k ++ hexText (payloadBytes pbs r)).length := by simp [payload]
    rw [start, getElem?_middle _ _ _ (by simpa using hj), List.getElem?_replicate, if_pos hj]

end Sys2Proof.Machine
end

section
/-! The six registers (20_memory.md section 6): their rows lie side by side and cover the packed stream. -/

namespace Sys2Proof.Machine

open Sys2Proof

theorem rows_in_order {k k' : Nat} {r r' : RegRow} (row : regTable[k]? = some r) (row' : regTable[k']? = some r')
    (lt : k < k') : r.start + r.count ≤ r'.start := by
  have order : ∀ k < 6, ∀ k' < 6, k < k' → ∀ r ∈ regTable[k]?, ∀ r' ∈ regTable[k']?, r.start + r.count ≤ r'.start := by
    decide
  exact order k (regTable_lt row) k' (regTable_lt row') lt r row r' row'

theorem row_of_index {i : Nat} (hi : i < 90) :
    ∃ (k : Nat) (r : RegRow), regTable[k]? = some r ∧ r.start ≤ i ∧ i < r.start + r.count := by
  have cover : ∀ i < 90, ∃ k < 6, ∃ r ∈ regTable[k]?, r.start ≤ i ∧ i < r.start + r.count := by decide
  obtain ⟨k, -, r, row, lower, upper⟩ := cover i hi
  exact ⟨k, r, row, lower, upper⟩

/-- The payloads side by side are the whole stream. -/
theorem flatMap_payloadBytes (pbs : Packed) : regTable.flatMap (payloadBytes pbs) = pbs.toList := by
  have slice : ∀ a n, (pbs.toList.drop a).take n ++ pbs.toList.drop (a + n) = pbs.toList.drop a := fun a n => by
    rw [← List.drop_drop, List.take_append_drop]
  calc regTable.flatMap (payloadBytes pbs)
      = (pbs.toList.drop 0).take 12 ++ ((pbs.toList.drop 12).take 16 ++ ((pbs.toList.drop 28).take 16
          ++ ((pbs.toList.drop 44).take 16 ++ ((pbs.toList.drop 60).take 16 ++ ((pbs.toList.drop 76).take 14
          ++ pbs.toList.drop (76 + 14)))))) := by simp [regTable, payloadBytes, numBytes]
    _ = pbs.toList := by
      rw [slice 76 14, slice 60 16, slice 44 16, slice 28 16, slice 12 16, slice 0 12, List.drop_zero]

theorem hexText_flatMap {α : Type} (bytes : α → List Byte) (rows : List α) :
    rows.flatMap (fun r => hexText (bytes r)) = hexText (rows.flatMap bytes) := by
  simp [hexText, List.flatMap_assoc]

/-- Settles O35. -/
theorem registersPartitionThePackedStream : Obligations.RegistersPartitionThePackedStream := by
  refine ⟨rfl, fun i hi => ?_, fun pbs => ?_⟩
  · obtain ⟨k, r, row, lower, upper⟩ := row_of_index hi
    refine ⟨k, r, row, lower, upper, fun k' r' row' lower' upper' => ?_⟩
    rcases Nat.lt_trichotomy k' k with before | same | after
    · have := rows_in_order row' row before; omega
    · exact same
    · have := rows_in_order row row' after; omega
  · exact (hexText_flatMap (payloadBytes pbs) regTable).trans (congrArg hexText (flatMap_payloadBytes pbs))

/-- A register's frame tells its payload, and nothing else of the stream. -/
theorem regFrame_eq_iff (cfg : Config) (pbs pbs' : Packed) {k : Nat} {r : RegRow} (row : regTable[k]? = some r) :
    regFrame cfg pbs k = regFrame cfg pbs' k ↔ payloadBytes pbs r = payloadBytes pbs' r := by
  rw [regFrame_eq cfg pbs row, regFrame_eq cfg pbs' row, Option.some_inj, List.cons_inj_right,
    hexText_injective.eq_iff]
  refine ⟨fun same => ?_, fun same => by simp only [bodyBytes, same]⟩
  obtain ⟨body, -⟩ := List.append_inj' same rfl
  simpa [bodyBytes] using body

theorem payloadBytes_set_of_not_mem (pbs : Packed) {r : RegRow} {i : Nat} (hi : i < 90) (b : Byte)
    (out : ¬(r.start ≤ i ∧ i < r.start + r.count)) : payloadBytes (pbs.set i b hi) r = payloadBytes pbs r := by
  refine List.ext_getElem? fun j => ?_
  by_cases lt : j < r.count
  · rw [getElem?_payloadBytes _ lt, getElem?_payloadBytes _ lt, Vector.getElem?_set_ne hi (by omega)]
  · simp [payloadBytes, lt]

theorem payloadBytes_set_ne_of_mem (pbs : Packed) {r : RegRow} {i : Nat} (hi : i < 90) {b : Byte} (new : b ≠ pbs[i]'hi)
    (lower : r.start ≤ i) (upper : i < r.start + r.count) :
    payloadBytes (pbs.set i b hi) r ≠ payloadBytes pbs r := fun same => by
  obtain ⟨j, rfl⟩ := Nat.exists_eq_add_of_le lower
  have read := congrArg (fun bytes => bytes[j]?) same
  simp only [getElem?_payloadBytes _ (show j < r.count by omega), Vector.getElem?_set_self hi,
    Vector.getElem?_eq_getElem hi, Option.some_inj] at read
  exact new read

/-- Settles O36. -/
theorem oneByteChangesOneRegisterFrame : Obligations.OneByteChangesOneRegisterFrame := by
  intro cfg pbs i hi b new k r row
  rw [Ne, regFrame_eq_iff cfg _ pbs row]
  refine ⟨fun changed => ?_, fun ⟨lower, upper⟩ => payloadBytes_set_ne_of_mem pbs hi new lower upper⟩
  by_contra out
  exact changed (payloadBytes_set_of_not_mem pbs hi b out)

end Sys2Proof.Machine
end

section
/-! Inbound bytes (60_exceptions.md R106): no move of FDCORE reads the Transmitter's record, so a move from a state with
another record is the same move. -/

namespace Sys2Proof.Machine

open Sys2Proof

/-- The state with another record of the Transmitter. -/
def State.withTx (tx : Transmitter) (s : State) : State := { s with tx := tx }

@[simp] theorem withTx_txWait (tx : Transmitter) (s : State) : (s.withTx tx).txWait = s.txWait := rfl

theorem writeDot_withTx (x y : Coord) (v : Bool) (tx : Transmitter) (s : State) :
    writeDot x y v (s.withTx tx) = (writeDot x y v s).withTx tx := by
  cases range : inRange (coord x) (coord y) with
  | true => rw [writeDot_of_inRange range, writeDot_of_inRange range]; rfl
  | false => rw [writeDot_of_outOfRange range, writeDot_of_outOfRange range]

theorem exec_withTx {i : Instr} {s t : State} (tx : Transmitter) (h : exec i s = .next t) :
    exec i (s.withTx tx) = .next (t.withTx tx) := by
  cases i with
  | setdot x y => cases h; exact congrArg _ (writeDot_withTx x y true tx s)
  | clrdot x y => cases h; exact congrArg _ (writeDot_withTx x y false tx s)
  | tgldot x y =>
    cases range : inRange (coord x) (coord y) with
    | true => rw [exec_tgldot_inRange range] at h ⊢; cases h; rfl
    | false => rw [exec_tgldot_outOfRange _ range] at h ⊢; cases h; rfl
  | allon => cases h; rfl
  | alloff => cases h; rfl
  | invall => cases h; rfl
  | pack => cases h; rfl
  | encreg k =>
    by_cases noRegister : 5 < k.toNat
    · rw [exec_encreg_noRegister _ noRegister] at h ⊢; cases h; rfl
    · have register := Nat.le_of_not_lt noRegister
      cases packed : s.pbsV with
      | true =>
        rw [exec_encreg_packed register packed] at h
        rw [exec_encreg_packed register (s := s.withTx tx) packed]
        cases h; rfl
      | false =>
        rw [exec_encreg_unpacked register packed] at h
        rw [exec_encreg_unpacked register (s := s.withTx tx) packed]
        cases h; rfl
  | update => cases h; rfl
  | init => cases h; rfl
  | lrc last c =>
    cases last with
    | false => cases h; rfl
    | true =>
      cases bad : lrcMalformed (lrcFeed (lrcStart s.lrc) c) with
      | true =>
        rw [exec_lrc_malformed bad] at h
        rw [exec_lrc_malformed (s := s.withTx tx) bad]
        cases h; rfl
      | false =>
        rw [exec_lrc_wellFormed bad] at h
        rw [exec_lrc_wellFormed (s := s.withTx tx) bad]
        cases h; rfl

theorem runWord_withTx {p : PortWord} {s t : State} (tx : Transmitter) (h : runWord p s = .next t) :
    runWord p (s.withTx tx) = .next (t.withTx tx) := by
  unfold runWord at h ⊢
  split at h
  · exact exec_withTx tx h
  · cases h; rfl

theorem transfer_command {p : Pins} {s : State} {w : CmdWord} {ws : List CmdWord} (offered : s.cmds = w :: ws)
    (valid : p.cmdValid = true) (ready : cmdReady s = true) : transfer p s = some (.cmd w, { s with cmds := ws }) := by
  simp [transfer, cmdTransfer, offered, valid, ready]

theorem transfer_beat {p : Pins} {s : State} {b : Beat} {bs : List Beat} (offered : s.beats = b :: bs)
    (valid : p.lrcValid = true) (ready : lrcReady s = true) (noCmd : cmdTransfer p s = false) :
    transfer p s = some (.beat b, { s with beats := bs }) := by
  simp [transfer, noCmd, offered, valid, ready]

theorem transfer_nothing {p : Pins} {s : State} (noCmd : cmdTransfer p s = false)
    (noBeat : (p.lrcValid && lrcReady s && !s.beats.isEmpty) = false) : transfer p s = none := by
  cases offered : s.beats with
  | nil => simp [transfer, noCmd, offered]
  | cons b bs =>
    have notTaken : (p.lrcValid && lrcReady s) = false := by simpa [offered] using noBeat
    simp [transfer, noCmd, notTaken]

theorem transfer_withTx (p : Pins) (s : State) (tx : Transmitter) :
    transfer p (s.withTx tx) = (transfer p s).map fun q => (q.1, q.2.withTx tx) := by
  rcases transfer_cases p s with
    ⟨w, ws, taken, offered, valid, ready⟩ | ⟨b, bs, taken, offered, valid, ready, noCmd⟩ | ⟨taken, noCmd, noBeat⟩
  · rw [taken]; exact transfer_command (s := s.withTx tx) offered valid ready
  · rw [taken]; exact transfer_beat (s := s.withTx tx) offered valid ready noCmd
  · rw [taken]; exact transfer_nothing (s := s.withTx tx) noCmd noBeat

theorem serve_withTx {p : Pins} {s t : State} (tx : Transmitter) (h : serve p s = .next t) :
    serve p (s.withTx tx) = .next (t.withTx tx) := by
  unfold serve at h ⊢
  rw [transfer_withTx]
  cases moved : transfer p s with
  | none => rw [moved] at h; cases h; rfl
  | some q => rw [moved] at h; exact runWord_withTx tx h

/-- Words do not touch the Transmitter. -/
theorem serve_tx {p : Pins} {s t : State} (h : serve p s = .next t) : t.tx = s.tx := by
  have same : Host.Outcome.next t = .next (t.withTx s.tx) := h.symm.trans (serve_withTx s.tx h)
  injection same with same
  exact congrArg State.tx (a₂ := t.withTx s.tx) same

/-- A frame is formed and handed over whatever the Transmitter's record is. -/
theorem emit_withTx {s : State} (inv : s.Inv) (run : busy s = true) (tx : Transmitter) :
    ∃ f u, emit s = .next (handOver f (setLrc u s))
      ∧ emit (s.withTx tx) = .next ((handOver f (setLrc u s)).withTx { tx with held := some f }) := by
  rcases frame_of_inv inv run with ⟨f, named⟩ | ⟨k, body, f, named, packed, hasBody, frame⟩
  · exact ⟨f, s.lrc, emit_literal named, emit_literal (s := s.withTx tx) named⟩
  · exact ⟨f, _, emit_register named packed hasBody frame, emit_register (s := s.withTx tx) named packed hasBody frame⟩

/-- The same record but for the bytes waiting at the Transmitter. -/
def withInbound (waiting : List Byte) (tx : Transmitter) : Transmitter := { tx with inbound := waiting }

theorem channel_sendHeld_withInbound (waiting : List Byte) (tx : Transmitter) :
    (sendHeld (withInbound waiting tx)).channel = (sendHeld tx).channel := by
  obtain ⟨held, inbound, channel⟩ := tx
  cases held <;> rfl

/-- One move from two states that differ in the waiting bytes: the same but for the Transmitter's record, and but for a
reset of a running sequence the same on the channel. -/
theorem move_withInbound (p : Pins) {s : State} (inv : s.Inv) (waiting : List Byte) :
    ∃ t tx, move p s = .next t ∧ move p (s.withTx (withInbound waiting s.tx)) = .next (t.withTx tx)
      ∧ (p.rst = false ∨ busy s = false → t.tx.channel = tx.channel) := by
  have sameEnabled : emitEnabled (s.withTx (withInbound waiting s.tx)) = emitEnabled s := rfl
  unfold move
  rw [withTx_txWait, sameEnabled]
  split_ifs with rst done ready
  · refine ⟨_, (resetCore (s.withTx (withInbound waiting s.tx))).tx, rfl, rfl, fun notRunning => ?_⟩
    have idle : busy s = false := notRunning.resolve_left (by simp [rst])
    have idle' : busy (s.withTx (withInbound waiting s.tx)) = false := idle
    rw [resetCore_tx, resetCore_tx, idle, idle']
    rfl
  · exact ⟨_, _, rfl, rfl, fun _ => (channel_sendHeld_withInbound waiting s.tx).symm⟩
  · simp only [Bool.and_eq_true] at ready
    obtain ⟨f, u, emitted, emitted'⟩ := emit_withTx inv ((emitEnabled_iff s).mp ready.2).1 (withInbound waiting s.tx)
    exact ⟨_, _, emitted, emitted', fun _ => rfl⟩
  · obtain ⟨t, served⟩ := serve_answers p s
    exact ⟨t, _, served, serve_withTx _ served, fun _ => by rw [serve_tx served]; rfl⟩

/-- Settles O52: time moves on to two states that differ in the waiting bytes, and the pins' own bytes are not read. -/
theorem inboundBytesNeverReachFdcore : Obligations.InboundBytesNeverReachFdcore := by
  intro s p ps waiting arriving inv pins
  have now := pinsNow_cons s p ps pins
  obtain ⟨t, tx, moved, moved', channel⟩ := move_withInbound p inv.advance (waiting ++ arriving)
  refine ⟨t, t.withTx tx, by rw [step, now, moved], ?_, rfl, channel⟩
  rw [← moved']
  simp only [step, pinsNow, advance, pins]
  rfl

end Sys2Proof.Machine
end
